-- ==== Sys2Proof/Word.lean ====
section
/-! DEFINITION. The two sizes of value the hardware has (spec/00_scope.md R5, R6): a byte of 8 bits and a word of
16 bits, both unsigned. Registers, addresses, immediates and memory operands are words; memory cells are bytes. -/

namespace Sys2Proof

/-- A byte: 8 bits (R5, R6). -/
abbrev Byte := BitVec 8

/-- A word: "an unsigned 16-bit value" (R6). Every register slot, address and immediate is one. -/
abbrev Word := BitVec 16

end Sys2Proof
end

