-- ==== Sys2Proof/Syntax.lean ====
section
/-! DEFINITION. The instructions as terms: one constructor for each of the 46 rows of spec/opcode_table.json
(spec/30_encoding.md R44). Register bytes are already register names and the width modifier of the 27 instructions
that have a width choice (R45) is already a `Width`; the other 19 ignore it, so their constructors do not carry it. -/

namespace Sys2Proof

/-- The form the width modifier W selects (R43): W = 0 the word form, W = 1 the byte form. -/
inductive Width where
  /-- W = 0: two bytes -/
  | word
  /-- W = 1: one byte -/
  | byte
deriving DecidableEq, Repr

/-- A slot of the register file (spec/10_state.md R10). -/
inductive Reg where
  /-- slot 0, general purpose -/
  | r0
  /-- slot 1, general purpose -/
  | r1
  /-- slot 2, general purpose -/
  | r2
  /-- slot 3, general purpose -/
  | r3
  /-- slot 4, general purpose -/
  | r4
  /-- slot 5, general purpose -/
  | r5
  /-- slot 6, the program counter -/
  | pc
  /-- slot 7, the stack pointer -/
  | sp
deriving DecidableEq, Repr

/-- An instruction. Operands stand in the order of the encoding (R47); `w` is the width form, `imm` an immediate
already zero-extended to a word (R49), `addr` a data address and `target` a code address. -/
inductive Instr where
  /-- 0x00 NOP (R74) -/
  | nop
  /-- 0x01 ADD reg1, reg2 (R75) -/
  | add (reg1 reg2 : Reg)
  /-- 0x02 ADDC reg, imm (R76) -/
  | addc (w : Width) (r : Reg) (imm : Word)
  /-- 0x03 ADDA reg, addr (R77) -/
  | adda (w : Width) (r : Reg) (addr : Word)
  /-- 0x04 SUB reg1, reg2 (R78) -/
  | sub (reg1 reg2 : Reg)
  /-- 0x05 SUBC reg, imm (R79) -/
  | subc (w : Width) (r : Reg) (imm : Word)
  /-- 0x06 SUBA reg, addr (R80) -/
  | suba (w : Width) (r : Reg) (addr : Word)
  /-- 0x07 MUL reg1, reg2 (R81) -/
  | mul (reg1 reg2 : Reg)
  /-- 0x08 MULC reg, imm (R82) -/
  | mulc (w : Width) (r : Reg) (imm : Word)
  /-- 0x09 MULA reg, addr (R83) -/
  | mula (w : Width) (r : Reg) (addr : Word)
  /-- 0x0A DIV reg1, reg2 (R84) -/
  | div (reg1 reg2 : Reg)
  /-- 0x0B DIVC reg, imm (R85) -/
  | divc (w : Width) (r : Reg) (imm : Word)
  /-- 0x0C DIVA reg, addr (R86) -/
  | diva (w : Width) (r : Reg) (addr : Word)
  /-- 0x0E CMP reg1, reg2 (R87) -/
  | cmp (reg1 reg2 : Reg)
  /-- 0x0F CMPA reg, addr (R88) -/
  | cmpa (w : Width) (r : Reg) (addr : Word)
  /-- 0x10 INC reg (R89) -/
  | inc (r : Reg)
  /-- 0x11 INCM addr (R90) -/
  | incm (w : Width) (addr : Word)
  /-- 0x12 DEC reg (R91) -/
  | dec (r : Reg)
  /-- 0x13 DECM addr (R92) -/
  | decm (w : Width) (addr : Word)
  /-- 0x20 UXT reg (R93) -/
  | uxt (r : Reg)
  /-- 0x30 LDR reg1, reg2 (R95) -/
  | ldr (reg1 reg2 : Reg)
  /-- 0x31 LDC reg, imm (R96) -/
  | ldc (w : Width) (r : Reg) (imm : Word)
  /-- 0x32 LDM reg, addr (R97) -/
  | ldm (w : Width) (r : Reg) (addr : Word)
  /-- 0x40 JSR target (R100) -/
  | jsr (target : Word)
  /-- 0x41 RTN (R101) -/
  | rtn
  /-- 0x42 JMP target (R102) -/
  | jmp (target : Word)
  /-- 0x43 JRZ reg, target (R103) -/
  | jrz (r : Reg) (target : Word)
  /-- 0x44 JRE reg, imm, target (R105) -/
  | jre (w : Width) (r : Reg) (imm target : Word)
  /-- 0x45 JRN reg, imm, target (R106) -/
  | jrn (w : Width) (r : Reg) (imm target : Word)
  /-- 0x46 JRG reg, imm, target (R107) -/
  | jrg (w : Width) (r : Reg) (imm target : Word)
  /-- 0x47 JRGE reg, imm, target (R108) -/
  | jrge (w : Width) (r : Reg) (imm target : Word)
  /-- 0x48 JRL reg, imm, target (R109) -/
  | jrl (w : Width) (r : Reg) (imm target : Word)
  /-- 0x49 JRLE reg, imm, target (R110) -/
  | jrle (w : Width) (r : Reg) (imm target : Word)
  /-- 0x4A JREM reg, memaddr, target (R111) -/
  | jrem (w : Width) (r : Reg) (addr target : Word)
  /-- 0x4B JRNM reg, memaddr, target (R112) -/
  | jrnm (w : Width) (r : Reg) (addr target : Word)
  /-- 0x4C JRGM reg, memaddr, target (R113) -/
  | jrgm (w : Width) (r : Reg) (addr target : Word)
  /-- 0x4D JRGEM reg, memaddr, target (R114) -/
  | jrgem (w : Width) (r : Reg) (addr target : Word)
  /-- 0x4E JRLM reg, memaddr, target (R115) -/
  | jrlm (w : Width) (r : Reg) (addr target : Word)
  /-- 0x4F JRLEM reg, memaddr, target (R116) -/
  | jrlem (w : Width) (r : Reg) (addr target : Word)
  /-- 0x60 PUSH reg (R117) -/
  | push (r : Reg)
  /-- 0x63 POP reg (R118) -/
  | pop (w : Width) (r : Reg)
  /-- 0x64 POPM addr (R119) -/
  | popm (w : Width) (addr : Word)
  /-- 0x65 PUSHS (R120) -/
  | pushs
  /-- 0x66 POPS (R121) -/
  | pops
  /-- 0x7E RESET (R123) -/
  | reset
  /-- 0x7F HALT (R124) -/
  | halt
deriving DecidableEq, Repr

end Sys2Proof
end

