-- ==== Sys2Proof/WellFormed.lean ====
section
/-! DEFINITION. Which instruction terms stand for an encoding (spec/30_encoding.md R46, R49). Registers, widths,
addresses and targets are well formed by their types; what is left is the size of an immediate: "A byte immediate `b`
is the value `zext_16(b)`, 0x0000 to 0x00FF" (R49), while a word immediate may be any word. -/

namespace Sys2Proof

/-- The immediate fits the form: below 256 in the byte form, any word in the word form (R49). -/
def immFits (w : Width) (imm : Word) : Bool :=
  match w with
  | .word => true
  | .byte => decide (imm.toNat < 256)

/-- The instruction has an encoding (R47, R49). -/
def Instr.wf (i : Instr) : Bool :=
  match i with
  | .nop => true
  | .add _ _ => true
  | .addc w _ imm => immFits w imm
  | .adda _ _ _ => true
  | .sub _ _ => true
  | .subc w _ imm => immFits w imm
  | .suba _ _ _ => true
  | .mul _ _ => true
  | .mulc w _ imm => immFits w imm
  | .mula _ _ _ => true
  | .div _ _ => true
  | .divc w _ imm => immFits w imm
  | .diva _ _ _ => true
  | .cmp _ _ => true
  | .cmpa _ _ _ => true
  | .inc _ => true
  | .incm _ _ => true
  | .dec _ => true
  | .decm _ _ => true
  | .uxt _ => true
  | .ldr _ _ => true
  | .ldc w _ imm => immFits w imm
  | .ldm _ _ _ => true
  | .jsr _ => true
  | .rtn => true
  | .jmp _ => true
  | .jrz _ _ => true
  | .jre w _ imm _ => immFits w imm
  | .jrn w _ imm _ => immFits w imm
  | .jrg w _ imm _ => immFits w imm
  | .jrge w _ imm _ => immFits w imm
  | .jrl w _ imm _ => immFits w imm
  | .jrle w _ imm _ => immFits w imm
  | .jrem _ _ _ _ => true
  | .jrnm _ _ _ _ => true
  | .jrgm _ _ _ _ => true
  | .jrgem _ _ _ _ => true
  | .jrlm _ _ _ _ => true
  | .jrlem _ _ _ _ => true
  | .push _ => true
  | .pop _ _ => true
  | .popm _ _ => true
  | .pushs => true
  | .pops => true
  | .reset => true
  | .halt => true

end Sys2Proof
end

