-- ==== Sys2Proof/Decode.lean ====
section
/-! DEFINITION. Encoding (spec/30_encoding.md): byte order, the formats of R47, the opcode table of R44, the decoder
(total on any bytes, rejecting by name), the encoder, and the reading of a row of spec/opcode_table.json. -/

namespace Sys2Proof

/-! ## Bytes and words (R29, R49) -/

/-- The low byte of a word, `v[7:0]`. -/
def loByte (v : Word) : Byte := BitVec.ofNat 8 v.toNat

/-- The high byte of a word, `v[15:8]`. -/
def hiByte (v : Word) : Byte := BitVec.ofNat 8 (v.toNat / 256)

/-- R49: "A word operand whose bytes are `b0` (lower address) and `b1` is the value `b0 + 256*b1`." -/
def wordOf (b0 b1 : Byte) : Word := BitVec.ofNat 16 (b0.toNat + 256 * b1.toNat)

/-- `zext_16` of a byte (R7). -/
def zext16 (b : Byte) : Word := BitVec.ofNat 16 b.toNat

/-! ## The first byte and register bytes (R42, R43, R50) -/

/-- R42: `opcode = byte[6:0]`. -/
def opcodeOf (b : Byte) : BitVec 7 := BitVec.ofNat 7 b.toNat

/-- R42, R43: W is bit 7 of the first byte; W = 1 is the byte form. -/
def widthOf (b : Byte) : Width := if b.toNat < 128 then .word else .byte

/-- R50: "A register operand byte `r` with `r <= 7` selects slot `r`." -/
def Reg.ofByte (b : Byte) : Option Reg :=
  match b with
  | 0x00#8 => some .r0
  | 0x01#8 => some .r1
  | 0x02#8 => some .r2
  | 0x03#8 => some .r3
  | 0x04#8 => some .r4
  | 0x05#8 => some .r5
  | 0x06#8 => some .pc
  | 0x07#8 => some .sp
  | _ => none

/-- The index of a slot, as a register operand byte (R10, R46). -/
def Reg.byte (r : Reg) : Byte :=
  match r with
  | .r0 => 0x00
  | .r1 => 0x01
  | .r2 => 0x02
  | .r3 => 0x03
  | .r4 => 0x04
  | .r5 => 0x05
  | .pc => 0x06
  | .sp => 0x07

/-! ## Formats and the opcode table (R44, R47) -/

/-- The formats of R47. Each holds the instruction it builds from its operands; a format whose instructions include
some with a width choice hands it the form that W selects, and an instruction without one ignores it (R45). -/
inductive Format where
  /-- no operand -/
  | f0 (make : Instr)
  /-- reg -/
  | fr (make : Width → Reg → Instr)
  /-- reg1, reg2 -/
  | frr (make : Reg → Reg → Instr)
  /-- reg, imm(W) -/
  | fri (make : Width → Reg → Word → Instr)
  /-- reg, addr -/
  | fra (make : Width → Reg → Word → Instr)
  /-- addr -/
  | fa (make : Width → Word → Instr)
  /-- target -/
  | ft (make : Word → Instr)
  /-- reg, target -/
  | frt (make : Reg → Word → Instr)
  /-- reg, imm(W), target -/
  | frit (make : Width → Reg → Word → Word → Instr)
  /-- reg, memaddr, target -/
  | frat (make : Width → Reg → Word → Word → Instr)

/-- The opcode table of R44. Every other value is illegal (R51). -/
def opcodeFormat (op : BitVec 7) : Option Format :=
  match op with
  | 0x00#7 => some (.f0 .nop)
  | 0x01#7 => some (.frr .add)
  | 0x02#7 => some (.fri .addc)
  | 0x03#7 => some (.fra .adda)
  | 0x04#7 => some (.frr .sub)
  | 0x05#7 => some (.fri .subc)
  | 0x06#7 => some (.fra .suba)
  | 0x07#7 => some (.frr .mul)
  | 0x08#7 => some (.fri .mulc)
  | 0x09#7 => some (.fra .mula)
  | 0x0A#7 => some (.frr .div)
  | 0x0B#7 => some (.fri .divc)
  | 0x0C#7 => some (.fra .diva)
  | 0x0E#7 => some (.frr .cmp)
  | 0x0F#7 => some (.fra .cmpa)
  | 0x10#7 => some (.fr fun _ r => .inc r)
  | 0x11#7 => some (.fa .incm)
  | 0x12#7 => some (.fr fun _ r => .dec r)
  | 0x13#7 => some (.fa .decm)
  | 0x20#7 => some (.fr fun _ r => .uxt r)
  | 0x30#7 => some (.frr .ldr)
  | 0x31#7 => some (.fri .ldc)
  | 0x32#7 => some (.fra .ldm)
  | 0x40#7 => some (.ft .jsr)
  | 0x41#7 => some (.f0 .rtn)
  | 0x42#7 => some (.ft .jmp)
  | 0x43#7 => some (.frt .jrz)
  | 0x44#7 => some (.frit .jre)
  | 0x45#7 => some (.frit .jrn)
  | 0x46#7 => some (.frit .jrg)
  | 0x47#7 => some (.frit .jrge)
  | 0x48#7 => some (.frit .jrl)
  | 0x49#7 => some (.frit .jrle)
  | 0x4A#7 => some (.frat .jrem)
  | 0x4B#7 => some (.frat .jrnm)
  | 0x4C#7 => some (.frat .jrgm)
  | 0x4D#7 => some (.frat .jrgem)
  | 0x4E#7 => some (.frat .jrlm)
  | 0x4F#7 => some (.frat .jrlem)
  | 0x60#7 => some (.fr fun _ r => .push r)
  | 0x63#7 => some (.fr .pop)
  | 0x64#7 => some (.fa .popm)
  | 0x65#7 => some (.f0 .pushs)
  | 0x66#7 => some (.f0 .pops)
  | 0x7E#7 => some (.f0 .reset)
  | 0x7F#7 => some (.f0 .halt)
  | _ => none

/-! ## The decoder -/

/-- Why bytes are no instruction. -/
inductive DecodeError where
  /-- the bytes end before the instruction does (never the case in memory, whose addresses wrap) -/
  | truncated
  /-- the opcode is none of the 46 of R44 (R51) -/
  | illegalOpcode (op : BitVec 7)
  /-- the register operand byte that stands after `before` bytes of the instruction is above 7 (R50) -/
  | illegalRegister (before : Nat)
deriving DecidableEq, Repr

/-- A register operand, which stands after `before` bytes of the instruction. -/
def takeReg (before : Nat) (bs : List Byte) : Except DecodeError (Reg × List Byte) :=
  match bs with
  | [] => .error .truncated
  | b :: rest =>
    match Reg.ofByte b with
    | some r => .ok (r, rest)
    | none => .error (.illegalRegister before)

/-- A two-byte operand: an address, a target or a word immediate (R46, R49). -/
def takeWord (bs : List Byte) : Except DecodeError (Word × List Byte) :=
  match bs with
  | b0 :: b1 :: rest => .ok (wordOf b0 b1, rest)
  | _ => .error .truncated

/-- An immediate of the width W selects, zero-extended in the byte form (R46, R49). -/
def takeImm (w : Width) (bs : List Byte) : Except DecodeError (Word × List Byte) :=
  match w with
  | .word => takeWord bs
  | .byte =>
    match bs with
    | b :: rest => .ok (zext16 b, rest)
    | [] => .error .truncated

/-- The operands of a format, in the order of R47. -/
def decodeOperands (w : Width) (f : Format) (bs : List Byte) : Except DecodeError (Instr × List Byte) :=
  match f with
  | .f0 make => .ok (make, bs)
  | .fr make => do
    let (r, bs) ← takeReg 1 bs
    return (make w r, bs)
  | .frr make => do
    let (reg1, bs) ← takeReg 1 bs
    let (reg2, bs) ← takeReg 2 bs
    return (make reg1 reg2, bs)
  | .fri make => do
    let (r, bs) ← takeReg 1 bs
    let (imm, bs) ← takeImm w bs
    return (make w r imm, bs)
  | .fra make => do
    let (r, bs) ← takeReg 1 bs
    let (addr, bs) ← takeWord bs
    return (make w r addr, bs)
  | .fa make => do
    let (addr, bs) ← takeWord bs
    return (make w addr, bs)
  | .ft make => do
    let (target, bs) ← takeWord bs
    return (make target, bs)
  | .frt make => do
    let (r, bs) ← takeReg 1 bs
    let (target, bs) ← takeWord bs
    return (make r target, bs)
  | .frit make => do
    let (r, bs) ← takeReg 1 bs
    let (imm, bs) ← takeImm w bs
    let (target, bs) ← takeWord bs
    return (make w r imm target, bs)
  | .frat make => do
    let (r, bs) ← takeReg 1 bs
    let (addr, bs) ← takeWord bs
    let (target, bs) ← takeWord bs
    return (make w r addr target, bs)

/-- The instruction at the front of a list of bytes, with the bytes after it. -/
def decode (bs : List Byte) : Except DecodeError (Instr × List Byte) :=
  match bs with
  | [] => .error .truncated
  | b :: rest =>
    match opcodeFormat (opcodeOf b) with
    | none => .error (.illegalOpcode (opcodeOf b))
    | some f => decodeOperands (widthOf b) f rest

/-! ## The encoder -/

/-- The first byte of an instruction that has a width choice (R42, R43): "the opcode value plus 0x80 is the byte
form". -/
def opByte (w : Width) (code : Byte) : Byte :=
  match w with
  | .word => code
  | .byte => code + 0x80

/-- A two-byte operand, low byte first (R46). -/
def wordBytes (v : Word) : List Byte := [loByte v, hiByte v]

/-- An immediate: one byte in the byte form, two in the word form (R46). -/
def immBytes (w : Width) (imm : Word) : List Byte :=
  match w with
  | .word => wordBytes imm
  | .byte => [loByte imm]

/-- Format FRR of R47. -/
def bytesRR (code : Byte) (reg1 reg2 : Reg) : List Byte := [code, reg1.byte, reg2.byte]

/-- Format FRI of R47. -/
def bytesRI (code : Byte) (w : Width) (r : Reg) (imm : Word) : List Byte :=
  opByte w code :: r.byte :: immBytes w imm

/-- Format FRA of R47. -/
def bytesRA (code : Byte) (w : Width) (r : Reg) (addr : Word) : List Byte :=
  opByte w code :: r.byte :: wordBytes addr

/-- Format FA of R47. -/
def bytesA (code : Byte) (w : Width) (addr : Word) : List Byte := opByte w code :: wordBytes addr

/-- Format FRIT of R47. -/
def bytesRIT (code : Byte) (w : Width) (r : Reg) (imm target : Word) : List Byte :=
  opByte w code :: r.byte :: (immBytes w imm ++ wordBytes target)

/-- Format FRAT of R47. -/
def bytesRAT (code : Byte) (w : Width) (r : Reg) (addr target : Word) : List Byte :=
  opByte w code :: r.byte :: (wordBytes addr ++ wordBytes target)

/-- The bytes of a well-formed instruction (R44, R47). An instruction without a width choice has two encodings, since
it ignores W (R45); the encoder writes the one with W = 0 (log entry 10). -/
def encode (i : Instr) : List Byte :=
  match i with
  | .nop => [0x00]
  | .add reg1 reg2 => bytesRR 0x01 reg1 reg2
  | .addc w r imm => bytesRI 0x02 w r imm
  | .adda w r addr => bytesRA 0x03 w r addr
  | .sub reg1 reg2 => bytesRR 0x04 reg1 reg2
  | .subc w r imm => bytesRI 0x05 w r imm
  | .suba w r addr => bytesRA 0x06 w r addr
  | .mul reg1 reg2 => bytesRR 0x07 reg1 reg2
  | .mulc w r imm => bytesRI 0x08 w r imm
  | .mula w r addr => bytesRA 0x09 w r addr
  | .div reg1 reg2 => bytesRR 0x0A reg1 reg2
  | .divc w r imm => bytesRI 0x0B w r imm
  | .diva w r addr => bytesRA 0x0C w r addr
  | .cmp reg1 reg2 => bytesRR 0x0E reg1 reg2
  | .cmpa w r addr => bytesRA 0x0F w r addr
  | .inc r => [0x10, r.byte]
  | .incm w addr => bytesA 0x11 w addr
  | .dec r => [0x12, r.byte]
  | .decm w addr => bytesA 0x13 w addr
  | .uxt r => [0x20, r.byte]
  | .ldr reg1 reg2 => bytesRR 0x30 reg1 reg2
  | .ldc w r imm => bytesRI 0x31 w r imm
  | .ldm w r addr => bytesRA 0x32 w r addr
  | .jsr target => 0x40 :: wordBytes target
  | .rtn => [0x41]
  | .jmp target => 0x42 :: wordBytes target
  | .jrz r target => 0x43 :: r.byte :: wordBytes target
  | .jre w r imm target => bytesRIT 0x44 w r imm target
  | .jrn w r imm target => bytesRIT 0x45 w r imm target
  | .jrg w r imm target => bytesRIT 0x46 w r imm target
  | .jrge w r imm target => bytesRIT 0x47 w r imm target
  | .jrl w r imm target => bytesRIT 0x48 w r imm target
  | .jrle w r imm target => bytesRIT 0x49 w r imm target
  | .jrem w r addr target => bytesRAT 0x4A w r addr target
  | .jrnm w r addr target => bytesRAT 0x4B w r addr target
  | .jrgm w r addr target => bytesRAT 0x4C w r addr target
  | .jrgem w r addr target => bytesRAT 0x4D w r addr target
  | .jrlm w r addr target => bytesRAT 0x4E w r addr target
  | .jrlem w r addr target => bytesRAT 0x4F w r addr target
  | .push r => [0x60, r.byte]
  | .pop w r => [opByte w 0x63, r.byte]
  | .popm w addr => bytesA 0x64 w addr
  | .pushs => [0x65]
  | .pops => [0x66]
  | .reset => [0x7E]
  | .halt => [0x7F]

/-- The length of an instruction in bytes (R47, R48). -/
def Instr.length (i : Instr) : Nat := (encode i).length

/-! ## Rows of the opcode table -/

/-- Length in bytes of the longest instruction (R48). -/
def maxLength : Nat := 6

/-- The bytes of an instruction whose bits are `w`, bit 0 the least significant bit of the first byte; the bits from
`nbits` on are 0, up to the longest instruction. -/
def tableBytes (nbits w : Nat) : List Byte :=
  (List.range maxLength).map fun k => BitVec.ofNat 8 ((w % 2 ^ nbits) / 256 ^ k)

/-- The instruction the decoder reads from such bits. -/
def decodeTableWord (nbits w : Nat) : Option Instr :=
  match decode (tableBytes nbits w) with
  | .ok (i, _) => some i
  | .error _ => none

end Sys2Proof
end

