-- ==== Sys2Proof/Machine/Operands.lean ====
section
/-! DEFINITION. What the width modifier selects (spec/30_encoding.md R43), the arithmetic function of
spec/41_arithmetic.md R73 and the conditions of spec/44_control_transfer.md R104, on values alone. -/

namespace Sys2Proof

/-- R43: `width(W)`, the number of bytes of the operand W selects. -/
def Width.bytes (w : Width) : Nat :=
  match w with
  | .word => 2
  | .byte => 1

/-- R43: `mask(W) + 1`, the modulus of the form's arithmetic. -/
def Width.modulus (w : Width) : Nat :=
  match w with
  | .word => 65536
  | .byte => 256

/-- `v mod (mask(W) + 1)`: the part of a register that takes part in the form's arithmetic (R73). -/
def Width.part (w : Width) (v : Word) : Nat := v.toNat % w.modulus

namespace Machine

/-- The operations of R73. -/
inductive AluOp where
  /-- addition -/
  | add
  /-- subtraction -/
  | sub
  /-- multiplication, low half -/
  | mul
  /-- unsigned division, rounded down -/
  | div
deriving DecidableEq, Repr

/-- `(a' + b') mod (m + 1)`: addition (R73), and the `v + 1` of INC and INCM (R89, R90). -/
def sum (w : Width) (a b : Word) : Word := BitVec.ofNat 16 ((w.part a + w.part b) % w.modulus)

/-- `(a' − b') mod (m + 1)`, between 0 and the mask: subtraction (R73), the difference of a compare (R87, R88), and the
`v − 1` of DEC and DECM (R91, R92). -/
def difference (w : Width) (a b : Word) : Word :=
  BitVec.ofNat 16 ((w.part a + (w.modulus - w.part b)) % w.modulus)

/-- R73: `ALU(k, a, b, W)`, zero-extended to 16 bits; `none` where it raises DivideByZero. -/
def alu (k : AluOp) (w : Width) (a b : Word) : Option Word :=
  match k with
  | .add => some (sum w a b)
  | .sub => some (difference w a b)
  | .mul => some (BitVec.ofNat 16 (w.part a * w.part b % w.modulus))
  | .div => if w.part b = 0 then none else some (BitVec.ofNat 16 (w.part a / w.part b))

/-- The conditions of the compare-and-branch instructions (R104): the meaning of the suffixes. -/
inductive Cond where
  /-- E: equal -/
  | e
  /-- N: not equal -/
  | n
  /-- G: greater -/
  | g
  /-- GE: greater or equal -/
  | ge
  /-- L: less -/
  | l
  /-- LE: less or equal -/
  | le
deriving DecidableEq, Repr

/-- `cond(a, v)` with the register's value `a` on the left: "unsigned 16-bit" (R104 to R116). -/
def Cond.holds (k : Cond) (a v : Word) : Bool :=
  match k with
  | .e => decide (a.toNat = v.toNat)
  | .n => decide (a.toNat ≠ v.toNat)
  | .g => decide (a.toNat > v.toNat)
  | .ge => decide (a.toNat ≥ v.toNat)
  | .l => decide (a.toNat < v.toNat)
  | .le => decide (a.toNat ≤ v.toNat)

end Machine
end Sys2Proof
end

