-- ==== Sys2Proof/Config.lean ====
section
/-! DEFINITION. What an implementation fixes (spec/00_scope.md R5). Every parameter but one has its value there; the
one marked OPEN, `STATUS_LAYOUT`, is the type `StatusLayout`: a machine's layout is a field of its state that no step
changes, so a statement about every state is a statement about every layout (log entry 1). -/

namespace Sys2Proof.Config

/-- Number of memory bytes, 65536: addresses 0x0000 to 0xFFFF (R5, R28). -/
def memSize : Nat := 65536

/-- Reset value of `pc`, which is also the program load address (R5, R27, R38). -/
def resetPc : Word := 0x0000

/-- Reset value of `sp` (R5, R27, R38). -/
def resetSp : Word := 0xFFFF

/-- `STATUS_LAYOUT` (R5, R19): for each flag its bit position 0 to 7 in the packed status byte. -/
structure StatusLayout where
  /-- position of N (negative) -/
  n : Fin 8
  /-- position of O (overflow) -/
  o : Fin 8
  /-- position of B (break) -/
  b : Fin 8
  /-- position of D (decimal) -/
  d : Fin 8
  /-- position of I (interrupt disable) -/
  i : Fin 8
  /-- position of Z (zero) -/
  z : Fin 8
  /-- position of C (carry) -/
  c : Fin 8
deriving DecidableEq, Repr

/-- The seven positions, in the order in which the spec lists the flags. -/
def StatusLayout.positions (l : StatusLayout) : List (Fin 8) := [l.n, l.o, l.b, l.d, l.i, l.z, l.c]

/-- R19: `pos` is "an injective map from the seven flags to bit positions 0 to 7". -/
abbrev StatusLayout.Injective (l : StatusLayout) : Prop := l.positions.Nodup

/-- The default layout of R5 and R19: N=0, O=1, B=2, D=3, I=4, Z=5, C=6, bit 7 unused. DESIGN CHOICE of the spec
(decision D2), unsafe: log entry 1. -/
def StatusLayout.standard : StatusLayout :=
  { n := 0, o := 1, b := 2, d := 3, i := 4, z := 5, c := 6 }

end Sys2Proof.Config
end

