-- ==== Sys2Proof/Machine/State.lean ====
section
/-! DEFINITION. The machine's state (spec/10_state.md, spec/20_memory.md R28): "six general registers, the program
counter, the stack pointer, seven status flags, the halted flag, the fault latch, the cycle counter, and the memory
array ... Nothing else is state", with the implementation's STATUS_LAYOUT beside them (spec/00_scope.md R5). -/

namespace Sys2Proof.Machine

/-- Memory as (address, byte) pairs in one canonical form (`Memory.wf`): addresses strictly rising, all below 65536,
and no byte 0x00, which is what an address that is not listed reads as (R27: every memory byte is 0x00 after reset).
Log entry 14. -/
abbrev Memory := List Host.Cell

/-- The seven one-bit status flags (R17). The unused eighth bit of the status byte is not state. -/
structure Flags where
  /-- N, negative -/
  n : Bool
  /-- O, overflow -/
  o : Bool
  /-- B, break -/
  b : Bool
  /-- D, decimal -/
  d : Bool
  /-- I, interrupt disable -/
  i : Bool
  /-- Z, zero -/
  z : Bool
  /-- C, carry -/
  c : Bool
deriving DecidableEq, Repr

/-- The two fatal faults (spec/60_exceptions.md R126). A fault is taken into the latch `State.fault` and the step that
takes it answers a next state, so no step and no meaning ends in the outcome `fault` (log entry 4; safe). -/
inductive Fault where
  /-- IllegalInstruction: latched by the fetch of an undefined opcode (R127) or of a register operand byte above 7
  (R128). Safe. -/
  | illegalInstruction
  /-- DivideByZero: latched by DIV, DIVC and DIVA when the divisor is 0 (R129). Safe. -/
  | divideByZero
deriving DecidableEq, Repr

/-- Why the model gives no next state. No step and no meaning answers a refusal; the host port does. -/
inductive Refusal where
  /-- exec's arm of an instruction that has no meaning yet; no arm of this model uses it. Safe. -/
  | notModelled (mnemonic : String)
  /-- The host port: a transaction while a run is in progress, which R71 and R145 do not allow; what one would do then
  "is not in any source" (log entry 7). Safe. -/
  | transactionDuringRun
deriving DecidableEq, Repr

/-- The whole state of CORE. -/
structure State where
  /-- slot 0, R0 (R10) -/
  r0 : Word
  /-- slot 1, R1 (R10) -/
  r1 : Word
  /-- slot 2, R2 (R10) -/
  r2 : Word
  /-- slot 3, R3 (R10) -/
  r3 : Word
  /-- slot 4, R4 (R10) -/
  r4 : Word
  /-- slot 5, R5 (R10) -/
  r5 : Word
  /-- slot 6, the program counter (R13) -/
  pc : Word
  /-- slot 7, the stack pointer (R15) -/
  sp : Word
  /-- the status flags (R17) -/
  flags : Flags
  /-- the halted flag (R22) -/
  halted : Bool
  /-- the fault latch (R23): `none` or one of the two faults -/
  fault : Option Fault
  /-- the cycle counter, a signed unbounded integer (R24) -/
  cyc : Int
  /-- the memory array (R28) -/
  mem : Memory
  /-- STATUS_LAYOUT (R5, R19), fixed for a machine: no step and no reset changes it -/
  layout : Config.StatusLayout
deriving DecidableEq, Repr

/-- All seven flags 0. -/
def Flags.clear : Flags :=
  { n := false, o := false, b := false, d := false, i := false, z := false, c := false }

/-- The machine right after external reset and after power-on (R27, R142, R143): registers 0, `pc` 0x0000, `sp`
0xFFFF, flags 0, memory 0x00 everywhere, not halted, no fault, `cyc` 0; the layout is the spec's default (R19). -/
def State.reset : State :=
  { r0 := 0
    r1 := 0
    r2 := 0
    r3 := 0
    r4 := 0
    r5 := 0
    pc := Config.resetPc
    sp := Config.resetSp
    flags := Flags.clear
    halted := false
    fault := none
    cyc := 0
    mem := []
    layout := Config.StatusLayout.standard }

end Sys2Proof.Machine
end

