-- ==== Sys2Proof/Machine/Flags.lean ====
section
/-! DEFINITION. The status byte (spec/10_state.md R19) and the flag result of a compare (R18), the only flag
computation of the instruction set (R20). -/

namespace Sys2Proof.Machine

/-- The byte whose bit `p` is `f` and whose other bits are 0. -/
def flagBit (p : Fin 8) (f : Bool) : Byte := BitVec.ofNat 8 (if f then 2 ^ p.val else 0)

/-- R19: `Pack()` = "the byte b with b[pos(f)] = f for each flag f in {N,O,B,D,I,Z,C}, and the unused bit = 0". -/
def Flags.pack (l : Config.StatusLayout) (f : Flags) : Byte :=
  flagBit l.n f.n ||| flagBit l.o f.o ||| flagBit l.b f.b ||| flagBit l.d f.d ||| flagBit l.i f.i |||
    flagBit l.z f.z ||| flagBit l.c f.c

/-- R19: `Unpack(b)`: each flag is the bit at its position; the unused bit of `b` is ignored. -/
def Flags.unpack (l : Config.StatusLayout) (b : Byte) : Flags :=
  { n := b.getLsbD l.n
    o := b.getLsbD l.o
    b := b.getLsbD l.b
    d := b.getLsbD l.d
    i := b.getLsbD l.i
    z := b.getLsbD l.z
    c := b.getLsbD l.c }

/-- R18: after a compare whose difference is `t`, N is "the top bit of the n-bit difference", Z says whether it is 0,
and O, B, D, I, C are unchanged. -/
def Flags.compared (w : Width) (t : Word) (f : Flags) : Flags :=
  { f with n := t.getLsbD (8 * w.bytes - 1), z := decide (t.toNat = 0) }

end Sys2Proof.Machine
end

