-- ==== Sys2Proof/Machine/Ops.lean ====
section
/-! DEFINITION. The named operations over memory and registers: the memory primitives of spec/20_memory.md (R30 to
R33), the register file (spec/10_state.md R12), cycle charging and the fetch, data and stack primitives of
spec/40_execution_loop.md (R56 to R66), taking a fault (spec/60_exceptions.md R126) and the two resets
(spec/70_reset_and_hazards.md R142, R144). -/

namespace Sys2Proof.Machine

/-! ## Memory as data (log entry 14) -/

/-- The byte at an address: the listed one, and 0x00 where none is listed (R27). -/
def Memory.read (m : Memory) (a : Nat) : Byte :=
  match m with
  | [] => 0
  | c :: rest => if c.1 = a then c.2 else Memory.read rest a

/-- The memory without a listed byte at `a`. -/
def Memory.erase (m : Memory) (a : Nat) : Memory :=
  match m with
  | [] => []
  | c :: rest => if c.1 = a then Memory.erase rest a else c :: Memory.erase rest a

/-- The memory with `(a, v)` listed before the first higher address. -/
def Memory.insert (m : Memory) (a : Nat) (v : Byte) : Memory :=
  match m with
  | [] => [(a, v)]
  | c :: rest => if a < c.1 then (a, v) :: c :: rest else c :: Memory.insert rest a v

/-- `mem[a] <- v`, keeping the canonical form: a byte 0x00 is not listed. -/
def Memory.write (m : Memory) (a : Nat) (v : Byte) : Memory :=
  if v = 0 then Memory.erase m a else Memory.insert (Memory.erase m a) a v

/-- The canonical form from an address on: addresses strictly rising from `lo`, below 65536, no byte 0x00. -/
def Memory.wfFrom (lo : Nat) (m : Memory) : Bool :=
  match m with
  | [] => true
  | c :: rest =>
    decide (lo ≤ c.1) && decide (c.1 < Config.memSize) && decide (c.2 ≠ 0) && Memory.wfFrom (c.1 + 1) rest

/-- The canonical form of a memory. -/
def Memory.wf (m : Memory) : Bool := Memory.wfFrom 0 m

/-! ## The memory interface (R28 to R33) -/

/-- `mem[a]` (R28). -/
def State.readByte (s : State) (a : Word) : Byte := s.mem.read a.toNat

/-- `mem[a] <- v` (R28). -/
def State.writeByte (s : State) (a : Word) (v : Byte) : State := { s with mem := s.mem.write a.toNat v }

/-- R31: `MemRead(addr, width(W))`, uncharged, zero-extended to 16 bits; the second byte of a word is at
`(addr + 1) mod 65536` (R30). -/
def State.memRead (s : State) (a : Word) (w : Width) : Word :=
  match w with
  | .byte => zext16 (s.readByte a)
  | .word => wordOf (s.readByte a) (s.readByte (a + 1))

/-- R32: `MemWrite(addr, width(W), v)`, uncharged, low byte first. -/
def State.memWrite (s : State) (a : Word) (w : Width) (v : Word) : State :=
  match w with
  | .byte => s.writeByte a (loByte v)
  | .word => (s.writeByte a (loByte v)).writeByte (a + 1) (hiByte v)

/-- R33: `Clear()` sets every cell to 0x00, uncharged. -/
def State.clearMem (s : State) : State := { s with mem := [] }

/-- The `n` bytes from an address on, wrapping modulo 65536 (R30). -/
def State.bytesAt (s : State) (a : Word) (n : Nat) : List Byte :=
  match n with
  | 0 => []
  | n + 1 => s.readByte a :: State.bytesAt s (a + 1) n

/-! ## The register file (R12) -/

/-- `x[i]` (R12): slots 6 and 7 are `pc` and `sp` themselves. -/
def State.readReg (s : State) (r : Reg) : Word :=
  match r with
  | .r0 => s.r0
  | .r1 => s.r1
  | .r2 => s.r2
  | .r3 => s.r3
  | .r4 => s.r4
  | .r5 => s.r5
  | .pc => s.pc
  | .sp => s.sp

/-- `x[i] <- v` (R12): "a write to slot 6 is a jump, a write to slot 7 moves the stack". -/
def State.writeReg (s : State) (r : Reg) (v : Word) : State :=
  match r with
  | .r0 => { s with r0 := v }
  | .r1 => { s with r1 := v }
  | .r2 => { s with r2 := v }
  | .r3 => { s with r3 := v }
  | .r4 => { s with r4 := v }
  | .r5 => { s with r5 := v }
  | .pc => { s with pc := v }
  | .sp => { s with sp := v }

/-! ## Charging and taking a fault (R56, R126) -/

/-- R56: `Charge(n)` is `cyc <- cyc − n`. -/
def State.charge (s : State) (n : Nat) : State := { s with cyc := s.cyc - n }

/-- R126: `raise F` sets the fault latch; what it abandons is up to the caller. A fault saves nothing, switches no
mode and transfers control nowhere (R133), and there is no return from one but external reset (R134). -/
def State.raise (s : State) (f : Fault) : State := { s with fault := some f }

/-- The condition of the run loop (R68): the budget is positive, the core is not halted and no fault is latched. -/
def State.running (s : State) : Bool := decide (0 < s.cyc) && !s.halted && s.fault.isNone

/-! ## Instruction-stream primitives (R57 to R60)

Where a primitive may raise, `Except State` stands for "raise ends the block at once" (R7): the error is the state the
raise leaves. -/

/-- R57: `FetchByte()`. -/
def State.fetchByte (s : State) : Byte × State :=
  (s.readByte s.pc, { s with pc := s.pc + 1 }.charge 1)

/-- R58: `FetchWord()`. -/
def State.fetchWord (s : State) : Word × State :=
  (s.memRead s.pc .word, { s with pc := s.pc + 2 }.charge 2)

/-- R59: `FetchReg()`: "The check is made as soon as the byte has been fetched"; "the fetch itself (the `pc`
increment and the 1 cycle) stands". -/
def State.fetchReg (s : State) : Except State (Reg × State) :=
  match Reg.ofByte s.fetchByte.1 with
  | some r => .ok (r, s.fetchByte.2)
  | none => .error (s.fetchByte.2.raise .illegalInstruction)

/-- R60: `FetchImm(W)`, zero-extended in the byte form. -/
def State.fetchImm (s : State) (w : Width) : Word × State :=
  match w with
  | .byte => (zext16 s.fetchByte.1, s.fetchByte.2)
  | .word => s.fetchWord

/-! ## Data primitives (R61, R62) -/

/-- R61: `LoadData(addr, W)`. -/
def State.loadData (s : State) (a : Word) (w : Width) : Word × State := (s.memRead a w, s.charge w.bytes)

/-- R62: `StoreData(addr, W, v)`. -/
def State.storeData (s : State) (a : Word) (w : Width) (v : Word) : State := (s.memWrite a w v).charge w.bytes

/-! ## Stack primitives (R63 to R66): "pushes pre-decrement SP, pops post-increment SP" -/

/-- `PushByte(v)` (R63) and `PushWord(v)` (R65): `sp` moves down first, then the value is written there. -/
def State.push (s : State) (w : Width) (v : Word) : State :=
  ({ s with sp := s.sp - BitVec.ofNat 16 w.bytes }.memWrite (s.sp - BitVec.ofNat 16 w.bytes) w v).charge w.bytes

/-- `PopByte()` (R64) and `PopWord()` (R66): the value at `sp` is read, then `sp` moves up. -/
def State.pop (s : State) (w : Width) : Word × State :=
  (s.memRead s.sp w, { s.charge w.bytes with sp := s.sp + BitVec.ofNat 16 w.bytes })

/-! ## The resets (R123, R142, R144) -/

/-- The first five lines of `ExternalReset()`, which are all that the RESET opcode does (R123, R144). -/
def State.resetCore (s : State) : State :=
  { s.clearMem with
    r0 := 0
    r1 := 0
    r2 := 0
    r3 := 0
    r4 := 0
    r5 := 0
    flags := Flags.unpack s.layout 0
    pc := Config.resetPc
    sp := Config.resetSp }

/-- R142: `ExternalReset()`. -/
def State.externalReset (s : State) : State := { s.resetCore with halted := false, fault := none, cyc := 0 }

end Sys2Proof.Machine
end

