-- ==== Sys2Proof/Machine/Arith.lean ====
section
/-! DEFINITION. NOP and the ADD, SUB, MUL and DIV families (spec/41_arithmetic.md R74 to R86). A meaning starts in the
state after the instruction's fetches (`State.fetchInstr`), as the pseudocode after its fetch lines does. None of them
writes a flag (R20). -/

namespace Sys2Proof.Machine

/-- `x[r] <- ALU(k, x[r], b, W)` (R73), raising DivideByZero where the ALU does, the register then not written
(R129). -/
def State.aluInto (s : State) (k : AluOp) (w : Width) (r : Reg) (b : Word) : State :=
  match alu k w (s.readReg r) b with
  | some v => s.writeReg r v
  | none => s.raise .divideByZero

/-- The same with the memory operand of width W at `addr` as second operand, read and charged first (R77, R86). -/
def State.aluMemInto (s : State) (k : AluOp) (w : Width) (r : Reg) (addr : Word) : State :=
  (s.loadData addr w).2.aluInto k w r (s.loadData addr w).1

/-- NOP (R74): "no effect". -/
def execNop (s : State) : Host.Outcome State Fault Refusal := .next s

/-- ADD (R75). -/
def execAdd (reg1 reg2 : Reg) (s : State) : Host.Outcome State Fault Refusal :=
  .next (s.aluInto .add .word reg1 (s.readReg reg2))

/-- ADDC (R76). -/
def execAddc (w : Width) (r : Reg) (imm : Word) (s : State) : Host.Outcome State Fault Refusal :=
  .next (s.aluInto .add w r imm)

/-- ADDA (R77). -/
def execAdda (w : Width) (r : Reg) (addr : Word) (s : State) : Host.Outcome State Fault Refusal :=
  .next (s.aluMemInto .add w r addr)

/-- SUB (R78): "Operand order is destination minus second operand". -/
def execSub (reg1 reg2 : Reg) (s : State) : Host.Outcome State Fault Refusal :=
  .next (s.aluInto .sub .word reg1 (s.readReg reg2))

/-- SUBC (R79). -/
def execSubc (w : Width) (r : Reg) (imm : Word) (s : State) : Host.Outcome State Fault Refusal :=
  .next (s.aluInto .sub w r imm)

/-- SUBA (R80). -/
def execSuba (w : Width) (r : Reg) (addr : Word) (s : State) : Host.Outcome State Fault Refusal :=
  .next (s.aluMemInto .sub w r addr)

/-- MUL (R81): the low 16 bits of the product. -/
def execMul (reg1 reg2 : Reg) (s : State) : Host.Outcome State Fault Refusal :=
  .next (s.aluInto .mul .word reg1 (s.readReg reg2))

/-- MULC (R82). -/
def execMulc (w : Width) (r : Reg) (imm : Word) (s : State) : Host.Outcome State Fault Refusal :=
  .next (s.aluInto .mul w r imm)

/-- MULA (R83). -/
def execMula (w : Width) (r : Reg) (addr : Word) (s : State) : Host.Outcome State Fault Refusal :=
  .next (s.aluMemInto .mul w r addr)

/-- DIV (R84): unsigned, and DivideByZero if the divisor register holds 0. -/
def execDiv (reg1 reg2 : Reg) (s : State) : Host.Outcome State Fault Refusal :=
  .next (s.aluInto .div .word reg1 (s.readReg reg2))

/-- DIVC (R85). -/
def execDivc (w : Width) (r : Reg) (imm : Word) (s : State) : Host.Outcome State Fault Refusal :=
  .next (s.aluInto .div w r imm)

/-- DIVA (R86): the divisor is tested after it has been read and charged. -/
def execDiva (w : Width) (r : Reg) (addr : Word) (s : State) : Host.Outcome State Fault Refusal :=
  .next (s.aluMemInto .div w r addr)

end Sys2Proof.Machine
end

