-- ==== Sys2Proof/Machine/Compare.lean ====
section
/-! DEFINITION. Compare, increment, decrement and zero-extend (spec/42_compare_incdec_uxt.md R87 to R93). A meaning
starts in the state after the instruction's fetches. -/

namespace Sys2Proof.Machine

/-- N and Z from the difference `x[r] − b` of the given width (R18); no register and no memory is written. -/
def State.compare (s : State) (w : Width) (r : Reg) (b : Word) : State :=
  { s with flags := s.flags.compared w (difference w (s.readReg r) b) }

/-- CMP (R87): always 16-bit. -/
def execCmp (reg1 reg2 : Reg) (s : State) : Host.Outcome State Fault Refusal :=
  .next (s.compare .word reg1 (s.readReg reg2))

/-- CMPA (R88): in the byte form the register's low byte with the memory byte. -/
def execCmpa (w : Width) (r : Reg) (addr : Word) (s : State) : Host.Outcome State Fault Refusal :=
  .next ((s.loadData addr w).2.compare w r (s.loadData addr w).1)

/-- INC (R89): always 16-bit. -/
def execInc (r : Reg) (s : State) : Host.Outcome State Fault Refusal :=
  .next (s.writeReg r (sum .word (s.readReg r) 1))

/-- INCM (R90): "The read completes before the write." -/
def execIncm (w : Width) (addr : Word) (s : State) : Host.Outcome State Fault Refusal :=
  .next ((s.loadData addr w).2.storeData addr w (sum w (s.loadData addr w).1 1))

/-- DEC (R91): always 16-bit. -/
def execDec (r : Reg) (s : State) : Host.Outcome State Fault Refusal :=
  .next (s.writeReg r (difference .word (s.readReg r) 1))

/-- DECM (R92). -/
def execDecm (w : Width) (addr : Word) (s : State) : Host.Outcome State Fault Refusal :=
  .next ((s.loadData addr w).2.storeData addr w (difference w (s.loadData addr w).1 1))

/-- UXT (R93): "clears bits 15..8, keeps bits 7..0", and nothing else. -/
def execUxt (r : Reg) (s : State) : Host.Outcome State Fault Refusal :=
  .next (s.writeReg r (zext16 (loByte (s.readReg r))))

end Sys2Proof.Machine
end

