-- ==== Sys2Proof/Machine/Control.lean ====
section
/-! DEFINITION. Control transfer (spec/44_control_transfer.md R99 to R116): jumps, call, return, and the branches that
compare a register with a value. Targets are absolute (R99); no flag is read or written. A meaning starts in the state
after the instruction's fetches, with `pc` at the address after the instruction (JRZ: at its target word, R14). -/

namespace Sys2Proof.Machine

/-- `pc <- target` (R99). -/
def State.jump (s : State) (target : Word) : State := { s with pc := target }

/-- JSR (R100): the address after the JSR is pushed. -/
def execJsr (target : Word) (s : State) : Host.Outcome State Fault Refusal :=
  .next ((s.push .word s.pc).jump target)

/-- RTN (R101). -/
def execRtn (s : State) : Host.Outcome State Fault Refusal :=
  .next ((s.pop .word).2.jump (s.pop .word).1)

/-- JMP (R102). -/
def execJmp (target : Word) (s : State) : Host.Outcome State Fault Refusal := .next (s.jump target)

/-- JRZ (R103), with `pc` at the target word: taken, the word is fetched and charged 2 cycles; not taken, it is
"stepped over, not read, not charged". -/
def execJrz (r : Reg) (target : Word) (s : State) : Host.Outcome State Fault Refusal :=
  .next (if s.readReg r = 0 then (s.charge 2).jump target else s.jump (s.pc + 2))

/-- R104, immediate forms: `if cond(x[r], v) then pc <- target`. -/
def State.branch (s : State) (k : Cond) (r : Reg) (v target : Word) : State :=
  if k.holds (s.readReg r) v then s.jump target else s

/-- R104, memory forms: the memory operand of width W is read and charged, then compared. -/
def State.branchMem (s : State) (k : Cond) (w : Width) (r : Reg) (addr target : Word) : State :=
  (s.loadData addr w).2.branch k r (s.loadData addr w).1 target

/-- JRE (R105): branch if the register equals the immediate, which is already zero-extended (R49). -/
def execJre (_w : Width) (r : Reg) (imm target : Word) (s : State) : Host.Outcome State Fault Refusal :=
  .next (s.branch .e r imm target)

/-- JRN (R106): branch if the register differs from the immediate, which is already zero-extended (R49). -/
def execJrn (_w : Width) (r : Reg) (imm target : Word) (s : State) : Host.Outcome State Fault Refusal :=
  .next (s.branch .n r imm target)

/-- JRG (R107): branch if the register is greater than the immediate, which is already zero-extended (R49). -/
def execJrg (_w : Width) (r : Reg) (imm target : Word) (s : State) : Host.Outcome State Fault Refusal :=
  .next (s.branch .g r imm target)

/-- JRGE (R108): branch if the register is greater than or equal to the immediate, already zero-extended (R49). -/
def execJrge (_w : Width) (r : Reg) (imm target : Word) (s : State) : Host.Outcome State Fault Refusal :=
  .next (s.branch .ge r imm target)

/-- JRL (R109): branch if the register is less than the immediate, which is already zero-extended (R49). -/
def execJrl (_w : Width) (r : Reg) (imm target : Word) (s : State) : Host.Outcome State Fault Refusal :=
  .next (s.branch .l r imm target)

/-- JRLE (R110): branch if the register is less than or equal to the immediate, which is already zero-extended (R49). -/
def execJrle (_w : Width) (r : Reg) (imm target : Word) (s : State) : Host.Outcome State Fault Refusal :=
  .next (s.branch .le r imm target)

/-- JREM (R111): branch if the register equals the memory operand. -/
def execJrem (w : Width) (r : Reg) (addr target : Word) (s : State) : Host.Outcome State Fault Refusal :=
  .next (s.branchMem .e w r addr target)

/-- JRNM (R112): branch if the register differs from the memory operand. -/
def execJrnm (w : Width) (r : Reg) (addr target : Word) (s : State) : Host.Outcome State Fault Refusal :=
  .next (s.branchMem .n w r addr target)

/-- JRGM (R113): branch if the register is greater than the memory operand. -/
def execJrgm (w : Width) (r : Reg) (addr target : Word) (s : State) : Host.Outcome State Fault Refusal :=
  .next (s.branchMem .g w r addr target)

/-- JRGEM (R114): branch if the register is greater than or equal to the memory operand. -/
def execJrgem (w : Width) (r : Reg) (addr target : Word) (s : State) : Host.Outcome State Fault Refusal :=
  .next (s.branchMem .ge w r addr target)

/-- JRLM (R115): branch if the register is less than the memory operand. -/
def execJrlm (w : Width) (r : Reg) (addr target : Word) (s : State) : Host.Outcome State Fault Refusal :=
  .next (s.branchMem .l w r addr target)

/-- JRLEM (R116): branch if the register is less than or equal to the memory operand. -/
def execJrlem (w : Width) (r : Reg) (addr target : Word) (s : State) : Host.Outcome State Fault Refusal :=
  .next (s.branchMem .le w r addr target)

end Sys2Proof.Machine
end

