-- ==== Sys2Proof/Machine/Load.lean ====
section
/-! DEFINITION. The loads (spec/43_load.md R95 to R97). A byte-sized value is zero-extended and written to all 16 bits
of the slot (R98). A meaning starts in the state after the instruction's fetches, so slot 6 as a source is the address
of the next instruction (spec/10_state.md R14). -/

namespace Sys2Proof.Machine

/-- LDR (R95). -/
def execLdr (reg1 reg2 : Reg) (s : State) : Host.Outcome State Fault Refusal :=
  .next (s.writeReg reg1 (s.readReg reg2))

/-- LDC (R96); the immediate is already zero-extended in the byte form (R49). -/
def execLdc (_w : Width) (r : Reg) (imm : Word) (s : State) : Host.Outcome State Fault Refusal :=
  .next (s.writeReg r imm)

/-- LDM (R97). -/
def execLdm (w : Width) (r : Reg) (addr : Word) (s : State) : Host.Outcome State Fault Refusal :=
  .next ((s.loadData addr w).2.writeReg r (s.loadData addr w).1)

end Sys2Proof.Machine
end

