-- ==== Sys2Proof/Machine/Stack.lean ====
section
/-! DEFINITION. The stack instructions (spec/45_stack.md R117 to R121). "PUSH always pushes a word even for
general-purpose registers, but POP honors W" (R117). A meaning starts in the state after the instruction's fetches. -/

namespace Sys2Proof.Machine

/-- PUSH (R117): the register is read before `sp` moves. -/
def execPush (r : Reg) (s : State) : Host.Outcome State Fault Refusal := .next (s.push .word (s.readReg r))

/-- POP (R118): the register is written after `sp` has moved, so that `POP SP` leaves the popped value there. -/
def execPop (w : Width) (r : Reg) (s : State) : Host.Outcome State Fault Refusal :=
  .next ((s.pop w).2.writeReg r (s.pop w).1)

/-- POPM (R119): "The pop (including the sp increment) completes before the store". -/
def execPopm (w : Width) (addr : Word) (s : State) : Host.Outcome State Fault Refusal :=
  .next ((s.pop w).2.storeData addr w (s.pop w).1)

/-- PUSHS (R120): the status byte, zero-extended to a word. -/
def execPushs (s : State) : Host.Outcome State Fault Refusal :=
  .next (s.push .word (zext16 (s.flags.pack s.layout)))

/-- POPS (R121): a word is popped, its low byte goes to the flags and its high byte is discarded. -/
def execPops (s : State) : Host.Outcome State Fault Refusal :=
  .next { (s.pop .word).2 with flags := Flags.unpack s.layout (loByte (s.pop .word).1) }

end Sys2Proof.Machine
end

