-- ==== Sys2Proof/Machine/System.lean ====
section
/-! DEFINITION. The system instructions (spec/46_system.md R123, R124). -/

namespace Sys2Proof.Machine

/-- RESET (R123): "clear memory, zero R0..R5 and status, PC←0, SP←0xFFFF; halted flag unchanged"; the clear is not
charged. -/
def execReset (s : State) : Host.Outcome State Fault Refusal := .next s.resetCore

/-- HALT (R124): `halted <- true`. -/
def execHalt (s : State) : Host.Outcome State Fault Refusal := .next { s with halted := true }

end Sys2Proof.Machine
end

