-- ==== Sys2Proof/Machine/Dispatch.lean ====
section
/-! DEFINITION. What an instruction does, one arm per constructor (the dispatch of spec/40_execution_loop.md R67), in
the state after the instruction's fetches. -/

namespace Sys2Proof.Machine

def exec (i : Instr) (s : State) : Host.Outcome State Fault Refusal :=
  match i with
  | .nop => Sys2Proof.Machine.execNop s
  | .add reg1 reg2 => Sys2Proof.Machine.execAdd reg1 reg2 s
  | .addc w r imm => Sys2Proof.Machine.execAddc w r imm s
  | .adda w r addr => Sys2Proof.Machine.execAdda w r addr s
  | .sub reg1 reg2 => Sys2Proof.Machine.execSub reg1 reg2 s
  | .subc w r imm => Sys2Proof.Machine.execSubc w r imm s
  | .suba w r addr => Sys2Proof.Machine.execSuba w r addr s
  | .mul reg1 reg2 => Sys2Proof.Machine.execMul reg1 reg2 s
  | .mulc w r imm => Sys2Proof.Machine.execMulc w r imm s
  | .mula w r addr => Sys2Proof.Machine.execMula w r addr s
  | .div reg1 reg2 => Sys2Proof.Machine.execDiv reg1 reg2 s
  | .divc w r imm => Sys2Proof.Machine.execDivc w r imm s
  | .diva w r addr => Sys2Proof.Machine.execDiva w r addr s
  | .cmp reg1 reg2 => Sys2Proof.Machine.execCmp reg1 reg2 s
  | .cmpa w r addr => Sys2Proof.Machine.execCmpa w r addr s
  | .inc r => Sys2Proof.Machine.execInc r s
  | .incm w addr => Sys2Proof.Machine.execIncm w addr s
  | .dec r => Sys2Proof.Machine.execDec r s
  | .decm w addr => Sys2Proof.Machine.execDecm w addr s
  | .uxt r => Sys2Proof.Machine.execUxt r s
  | .ldr reg1 reg2 => Sys2Proof.Machine.execLdr reg1 reg2 s
  | .ldc w r imm => Sys2Proof.Machine.execLdc w r imm s
  | .ldm w r addr => Sys2Proof.Machine.execLdm w r addr s
  | .jsr target => Sys2Proof.Machine.execJsr target s
  | .rtn => Sys2Proof.Machine.execRtn s
  | .jmp target => Sys2Proof.Machine.execJmp target s
  | .jrz r target => Sys2Proof.Machine.execJrz r target s
  | .jre w r imm target => Sys2Proof.Machine.execJre w r imm target s
  | .jrn w r imm target => Sys2Proof.Machine.execJrn w r imm target s
  | .jrg w r imm target => Sys2Proof.Machine.execJrg w r imm target s
  | .jrge w r imm target => Sys2Proof.Machine.execJrge w r imm target s
  | .jrl w r imm target => Sys2Proof.Machine.execJrl w r imm target s
  | .jrle w r imm target => Sys2Proof.Machine.execJrle w r imm target s
  | .jrem w r addr target => Sys2Proof.Machine.execJrem w r addr target s
  | .jrnm w r addr target => Sys2Proof.Machine.execJrnm w r addr target s
  | .jrgm w r addr target => Sys2Proof.Machine.execJrgm w r addr target s
  | .jrgem w r addr target => Sys2Proof.Machine.execJrgem w r addr target s
  | .jrlm w r addr target => Sys2Proof.Machine.execJrlm w r addr target s
  | .jrlem w r addr target => Sys2Proof.Machine.execJrlem w r addr target s
  | .push r => Sys2Proof.Machine.execPush r s
  | .pop w r => Sys2Proof.Machine.execPop w r s
  | .popm w addr => Sys2Proof.Machine.execPopm w addr s
  | .pushs => Sys2Proof.Machine.execPushs s
  | .pops => Sys2Proof.Machine.execPops s
  | .reset => Sys2Proof.Machine.execReset s
  | .halt => Sys2Proof.Machine.execHalt s

end Sys2Proof.Machine
end

