-- ==== Sys2Proof/Machine/Fetch.lean ====
section
/-! DEFINITION. Fetching one instruction, byte by byte as spec/40_execution_loop.md R67 and the instruction rules'
pseudocode say: the opcode byte, then the operands of its format in the order of spec/30_encoding.md R47, each
register byte checked as soon as it is fetched. The answer is the instruction and the state after its fetches, or the
state that a raise leaves. -/

namespace Sys2Proof.Machine

/-- The operand fetches of a format. JRZ (format FRT) fetches its register byte only: its target word is fetched, or
stepped over, when the branch is decided (R103), so here it is read without a charge and `pc` stays in front of it
(log entry 5). -/
def State.fetchOperands (w : Width) (f : Format) (s : State) : Except State (Instr × State) :=
  match f with
  | .f0 make => .ok (make, s)
  | .fr make => do
    let (r, s) ← s.fetchReg
    return (make w r, s)
  | .frr make => do
    let (reg1, s) ← s.fetchReg
    let (reg2, s) ← s.fetchReg
    return (make reg1 reg2, s)
  | .fri make => do
    let (r, s) ← s.fetchReg
    return (make w r (s.fetchImm w).1, (s.fetchImm w).2)
  | .fra make => do
    let (r, s) ← s.fetchReg
    return (make w r s.fetchWord.1, s.fetchWord.2)
  | .fa make => .ok (make w s.fetchWord.1, s.fetchWord.2)
  | .ft make => .ok (make s.fetchWord.1, s.fetchWord.2)
  | .frt make => do
    let (r, s) ← s.fetchReg
    return (make r (s.memRead s.pc .word), s)
  | .frit make => do
    let (r, s) ← s.fetchReg
    let (imm, s) := s.fetchImm w
    return (make w r imm s.fetchWord.1, s.fetchWord.2)
  | .frat make => do
    let (r, s) ← s.fetchReg
    let (addr, s) := s.fetchWord
    return (make w r addr s.fetchWord.1, s.fetchWord.2)

/-- R67: fetch the opcode byte, split it into W and the opcode, and fetch the operands of the opcode's format; raise
IllegalInstruction if the opcode is not one of the 46. -/
def State.fetchInstr (s : State) : Except State (Instr × State) :=
  match opcodeFormat (opcodeOf s.fetchByte.1) with
  | none => .error (s.fetchByte.2.raise .illegalInstruction)
  | some f => State.fetchOperands (widthOf s.fetchByte.1) f s.fetchByte.2

end Sys2Proof.Machine
end

