-- ==== Sys2Proof/Machine/Step.lean ====
section
/-! DEFINITION. One step: one turn of the run loop of spec/40_execution_loop.md R68. -/

namespace Sys2Proof.Machine

/-- One turn of R68's loop. While the budget is positive, the core is not halted and no fault is latched, one
instruction is fetched and executed (R67), or the fault its fetch raises is taken. Otherwise the core is in one of the
stopped conditions of R141: nothing is fetched and nothing changes (R22, R23; log entry 2). -/
def step (s : State) : Host.Outcome State Fault Refusal :=
  match s.running with
  | true =>
    match s.fetchInstr with
    | .ok (i, t) => exec i t
    | .error t => .next t
  | false => .next s

/-- The state with bytes stored from an address on, wrapping modulo 65536. -/
def State.storeBytes (s : State) (a : Word) (bs : List Byte) : State :=
  match bs with
  | [] => s
  | b :: rest => State.storeBytes (s.writeByte a b) (a + 1) rest

/-- The state with an instruction's bytes stored at `pc`, and what the run loop needs to fetch it at the very next
step: a positive budget (1 where there was none, the budget of a `Run(1)`, R140), not halted, no fault latched. It
stands for the host's load of a program and its start of a run (log entry 3). -/
def State.withFetchWord (s : State) (nbits w : Nat) : State :=
  { s.storeBytes s.pc (tableBytes nbits w) with
    cyc := if 0 < s.cyc then s.cyc else 1
    halted := false
    fault := none }

end Sys2Proof.Machine
end

