-- ==== Sys2Proof/Machine/Port.lean ====
section
/-! DEFINITION. The host port (spec/40_execution_loop.md R68, R71): the four transactions, each allowed "only while no
run is in progress", and a whole run. -/

namespace Sys2Proof.Machine

/-- The transactions of R71. -/
inductive Transaction where
  /-- external reset (R142) -/
  | externalReset
  /-- host memory write `(a, v)`: one byte, no cycle charge -/
  | writeMemory (a : Word) (v : Byte)
  /-- host memory read `(a)`: no cycle charge, no state change; the answer is `State.readByte` -/
  | readMemory (a : Word)
  /-- `Run(budget)`: the budget is loaded into the cycle counter and the core's steps follow -/
  | run (budget : Int)
deriving DecidableEq, Repr

/-- The first line of `Run(budget)` (R68): `cyc <- budget`. -/
def State.startRun (s : State) (budget : Int) : State := { s with cyc := budget }

/-- A transaction of the host (R71). While a run is in progress, which is while the loop condition of R68 holds, it is
refused: the host has no move then, and no source says what one would do (R145, log entry 7). -/
def transact (x : Transaction) (s : State) : Host.Outcome State Fault Refusal :=
  if s.running then .refused .transactionDuringRun
  else
    match x with
    | .externalReset => .next s.externalReset
    | .writeMemory a v => .next (s.writeByte a v)
    | .readMemory _ => .next s
    | .run budget => .next (s.startRun budget)

/-- At most `n` turns of the run loop. -/
def runFor (n : Nat) (s : State) : State :=
  match n with
  | 0 => s
  | n + 1 =>
    match s.running with
    | true =>
      match step s with
      | .next t => runFor n t
      | .fault _ => s
      | .refused _ => s
    | false => s

/-- `Run(budget)` (R68): the state when the loop ends; its value is the `cyc` of that state. "Since every instruction
costs at least 1, a run with budget `b >= 1` executes at most `b` instructions" (R155), so as many turns are enough (log
entry 16). -/
def runBudget (budget : Int) (s : State) : State := runFor budget.toNat (s.startRun budget)

end Sys2Proof.Machine
end

