-- ==== Sys2Proof/Safety.lean ====
section
/-! DEFINITION. The terms in which claims are stated: what a safe run and a sound state are, what an instruction may
change, how the bytes of each format (spec/30_encoding.md R47) come to be executed, and the instruction table of
spec/70_reset_and_hazards.md R154. -/

namespace Sys2Proof.Machine

/-! ## Sound states and safe runs -/

/-- The invariant of the machine: the memory has its canonical form, STATUS_LAYOUT is injective (R19), the counter is
not below the largest overdraw (R69), and a core is not both halted and faulted (R133). -/
structure State.Inv (s : State) : Prop where
  /-- the memory has its canonical form -/
  mem : s.mem.wf = true
  /-- the flags have seven different bit positions -/
  layout : s.layout.Injective
  /-- "at the end of any run `−7 <= cyc`" -/
  cyc : -7 ≤ s.cyc
  /-- "a fault does not set `halted`" -/
  stop : s.halted = true → s.fault = none

/-- A safe state: no fault is latched. -/
abbrev State.Safe (s : State) : Prop := s.fault = none

/-! ## Frames -/

/-- The cells of the operand of width W at an address (R30): the second byte of a word is at
`(addr + 1) mod 65536`. -/
def cells (w : Width) (a : Word) : List Word :=
  match w with
  | .byte => [a]
  | .word => [a, a + 1]

/-- From `s` to `t` nothing changes but the registers `regs` (of the eight slots, `pc` and `sp` among them), the bytes
at `stored`, the flags, which become `flags`, and the counter, which falls by `cost`. -/
structure Frame (s t : State) (regs : List Reg) (stored : List Word) (flags : Flags) (cost : Nat) : Prop where
  /-- every other register slot is unchanged -/
  regs : ∀ r, r ∉ regs → t.readReg r = s.readReg r
  /-- every other byte of memory is unchanged -/
  mem : ∀ a, a ∉ stored → t.readByte a = s.readByte a
  /-- the flags afterwards -/
  flags : t.flags = flags
  /-- one cycle for each byte moved -/
  cyc : t.cyc = s.cyc - cost
  /-- the halted flag is unchanged -/
  halted : t.halted = s.halted
  /-- the fault latch is unchanged -/
  fault : t.fault = s.fault
  /-- STATUS_LAYOUT is unchanged -/
  layout : t.layout = s.layout

/-! ## From bytes to execution -/

/-- The state after `n` bytes of the instruction stream have been fetched and charged (R57, R58). -/
def State.fetched (s : State) (n : Nat) : State := { s with pc := s.pc + BitVec.ofNat 16 n, cyc := s.cyc - n }

/-- The state a fault of the fetch leaves: `n` bytes have been fetched and charged, and nothing else has changed but
the latch (R127, R128). -/
def State.faultedAfter (s : State) (n : Nat) : State := { s.fetched n with fault := some .illegalInstruction }

/-- The core is running and the bytes `bs` stand at `pc`. -/
abbrev State.Starts (s : State) (bs : List Byte) : Prop := s.running = true ∧ s.bytesAt s.pc bs.length = bs

/-- A register byte above 7 in byte 1 raises IllegalInstruction after 2 bytes (R59, R128). -/
def FirstRegisterChecked (code : Byte) : Prop :=
  ∀ (s : State) (w : Width) (x : Byte), s.Starts [opByte w code, x] → 7 < x.toNat →
    step s = .next (s.faultedAfter 2)

/-- Format F0: the opcode byte, with W = 0 or 1, is the instruction. -/
def RuleF0 (code : Byte) (i : Instr) : Prop :=
  ∀ (s : State) (w : Width), s.Starts [opByte w code] → step s = exec i (s.fetched 1)

/-- Format FR: two bytes; `make` says what W selects. -/
def RuleFR (code : Byte) (make : Width → Reg → Instr) : Prop :=
  FirstRegisterChecked code ∧
  ∀ (s : State) (w : Width) (r : Reg), s.Starts [opByte w code, r.byte] → step s = exec (make w r) (s.fetched 2)

/-- Format FRR: three bytes, W ignored, the two register bytes checked in order. -/
def RuleFRR (code : Byte) (make : Reg → Reg → Instr) : Prop :=
  FirstRegisterChecked code ∧
  (∀ (s : State) (w : Width) (reg1 : Reg) (y : Byte), s.Starts [opByte w code, reg1.byte, y] → 7 < y.toNat →
    step s = .next (s.faultedAfter 3)) ∧
  ∀ (s : State) (w : Width) (reg1 reg2 : Reg), s.Starts [opByte w code, reg1.byte, reg2.byte] →
    step s = exec (make reg1 reg2) (s.fetched 3)

/-- Format FRI: four bytes in the word form, three in the byte form. -/
def RuleFRI (code : Byte) (make : Width → Reg → Word → Instr) : Prop :=
  FirstRegisterChecked code ∧
  (∀ (s : State) (r : Reg) (lo hi : Byte), s.Starts [opByte .word code, r.byte, lo, hi] →
    step s = exec (make .word r (wordOf lo hi)) (s.fetched 4)) ∧
  ∀ (s : State) (r : Reg) (x : Byte), s.Starts [opByte .byte code, r.byte, x] →
    step s = exec (make .byte r (zext16 x)) (s.fetched 3)

/-- Format FRA: four bytes in both forms. -/
def RuleFRA (code : Byte) (make : Width → Reg → Word → Instr) : Prop :=
  FirstRegisterChecked code ∧
  ∀ (s : State) (w : Width) (r : Reg) (lo hi : Byte), s.Starts [opByte w code, r.byte, lo, hi] →
    step s = exec (make w r (wordOf lo hi)) (s.fetched 4)

/-- Format FA: three bytes in both forms. -/
def RuleFA (code : Byte) (make : Width → Word → Instr) : Prop :=
  ∀ (s : State) (w : Width) (lo hi : Byte), s.Starts [opByte w code, lo, hi] →
    step s = exec (make w (wordOf lo hi)) (s.fetched 3)

/-- Format FT: three bytes, W ignored. -/
def RuleFT (code : Byte) (make : Word → Instr) : Prop :=
  ∀ (s : State) (w : Width) (lo hi : Byte), s.Starts [opByte w code, lo, hi] →
    step s = exec (make (wordOf lo hi)) (s.fetched 3)

/-- Format FRT, of JRZ alone: the opcode and register bytes are fetched; the target word stands in the two bytes after
them and is left to the instruction to fetch or to step over (R103). -/
def RuleFRT (code : Byte) (make : Reg → Word → Instr) : Prop :=
  FirstRegisterChecked code ∧
  ∀ (s : State) (w : Width) (r : Reg) (lo hi : Byte), s.Starts [opByte w code, r.byte, lo, hi] →
    step s = exec (make r (wordOf lo hi)) (s.fetched 2)

/-- Format FRIT: six bytes in the word form, five in the byte form. -/
def RuleFRIT (code : Byte) (make : Width → Reg → Word → Word → Instr) : Prop :=
  FirstRegisterChecked code ∧
  (∀ (s : State) (r : Reg) (lo hi tlo thi : Byte), s.Starts [opByte .word code, r.byte, lo, hi, tlo, thi] →
    step s = exec (make .word r (wordOf lo hi) (wordOf tlo thi)) (s.fetched 6)) ∧
  ∀ (s : State) (r : Reg) (x tlo thi : Byte), s.Starts [opByte .byte code, r.byte, x, tlo, thi] →
    step s = exec (make .byte r (zext16 x) (wordOf tlo thi)) (s.fetched 5)

/-- Format FRAT: six bytes in both forms. -/
def RuleFRAT (code : Byte) (make : Width → Reg → Word → Word → Instr) : Prop :=
  FirstRegisterChecked code ∧
  ∀ (s : State) (w : Width) (r : Reg) (lo hi tlo thi : Byte),
    s.Starts [opByte w code, r.byte, lo, hi, tlo, thi] →
      step s = exec (make w r (wordOf lo hi) (wordOf tlo thi)) (s.fetched 6)

end Sys2Proof.Machine

namespace Sys2Proof

/-! ## The instruction table (R45, R48, R154) -/

/-- The instructions with a width choice (R45). -/
def Instr.hasWidthChoice (i : Instr) : Bool :=
  match i with
  | .nop => false
  | .add _ _ => false
  | .addc _ _ _ => true
  | .adda _ _ _ => true
  | .sub _ _ => false
  | .subc _ _ _ => true
  | .suba _ _ _ => true
  | .mul _ _ => false
  | .mulc _ _ _ => true
  | .mula _ _ _ => true
  | .div _ _ => false
  | .divc _ _ _ => true
  | .diva _ _ _ => true
  | .cmp _ _ => false
  | .cmpa _ _ _ => true
  | .inc _ => false
  | .incm _ _ => true
  | .dec _ => false
  | .decm _ _ => true
  | .uxt _ => false
  | .ldr _ _ => false
  | .ldc _ _ _ => true
  | .ldm _ _ _ => true
  | .jsr _ => false
  | .rtn => false
  | .jmp _ => false
  | .jrz _ _ => false
  | .jre _ _ _ _ => true
  | .jrn _ _ _ _ => true
  | .jrg _ _ _ _ => true
  | .jrge _ _ _ _ => true
  | .jrl _ _ _ _ => true
  | .jrle _ _ _ _ => true
  | .jrem _ _ _ _ => true
  | .jrnm _ _ _ _ => true
  | .jrgm _ _ _ _ => true
  | .jrgem _ _ _ _ => true
  | .jrlm _ _ _ _ => true
  | .jrlem _ _ _ _ => true
  | .push _ => false
  | .pop _ _ => true
  | .popm _ _ => true
  | .pushs => false
  | .pops => false
  | .reset => false
  | .halt => false

/-- `n` in the word form, `n'` in the byte form. -/
def Width.pick (w : Width) (n n' : Nat) : Nat :=
  match w with
  | .word => n
  | .byte => n'

/-- A row of R154: the length in bytes and the cycles charged; `taken` is read for JRZ only. -/
def Instr.tableRow (i : Instr) (taken : Bool) : Nat × Nat :=
  match i with
  | .nop => (1, 1)
  | .add _ _ => (3, 3)
  | .addc w _ _ => (w.pick 4 3, w.pick 4 3)
  | .adda w _ _ => (4, w.pick 6 5)
  | .sub _ _ => (3, 3)
  | .subc w _ _ => (w.pick 4 3, w.pick 4 3)
  | .suba w _ _ => (4, w.pick 6 5)
  | .mul _ _ => (3, 3)
  | .mulc w _ _ => (w.pick 4 3, w.pick 4 3)
  | .mula w _ _ => (4, w.pick 6 5)
  | .div _ _ => (3, 3)
  | .divc w _ _ => (w.pick 4 3, w.pick 4 3)
  | .diva w _ _ => (4, w.pick 6 5)
  | .cmp _ _ => (3, 3)
  | .cmpa w _ _ => (4, w.pick 6 5)
  | .inc _ => (2, 2)
  | .incm w _ => (3, w.pick 7 5)
  | .dec _ => (2, 2)
  | .decm w _ => (3, w.pick 7 5)
  | .uxt _ => (2, 2)
  | .ldr _ _ => (3, 3)
  | .ldc w _ _ => (w.pick 4 3, w.pick 4 3)
  | .ldm w _ _ => (4, w.pick 6 5)
  | .jsr _ => (3, 5)
  | .rtn => (1, 3)
  | .jmp _ => (3, 3)
  | .jrz _ _ => (4, if taken then 4 else 2)
  | .jre w _ _ _ => (w.pick 6 5, w.pick 6 5)
  | .jrn w _ _ _ => (w.pick 6 5, w.pick 6 5)
  | .jrg w _ _ _ => (w.pick 6 5, w.pick 6 5)
  | .jrge w _ _ _ => (w.pick 6 5, w.pick 6 5)
  | .jrl w _ _ _ => (w.pick 6 5, w.pick 6 5)
  | .jrle w _ _ _ => (w.pick 6 5, w.pick 6 5)
  | .jrem w _ _ _ => (6, w.pick 8 7)
  | .jrnm w _ _ _ => (6, w.pick 8 7)
  | .jrgm w _ _ _ => (6, w.pick 8 7)
  | .jrgem w _ _ _ => (6, w.pick 8 7)
  | .jrlm w _ _ _ => (6, w.pick 8 7)
  | .jrlem w _ _ _ => (6, w.pick 8 7)
  | .push _ => (2, 4)
  | .pop w _ => (2, w.pick 4 3)
  | .popm w _ => (3, w.pick 7 5)
  | .pushs => (1, 3)
  | .pops => (1, 3)
  | .reset => (1, 1)
  | .halt => (1, 1)

/-- How many bytes of the instruction stream are fetched and charged before an instruction acts: all of them, but two
for JRZ, whose target word is fetched or stepped over when the branch is decided (R48, R103). -/
def Instr.fetchedBytes (i : Instr) : Nat :=
  match i with
  | .jrz _ _ => 2
  | i => (i.tableRow false).1

end Sys2Proof
end

