-- ==== Sys2Proof/Certificates/Slice0/Obligations.lean ====
section
/-! DEFINITION. What is claimed of the model, for the provers. A statement about an instruction has two parts: how the
bytes of its format come to be executed (`RuleF…` of Sys2Proof/Safety.lean: the encoding, both values of W, the fetch's
cycles, a register byte above 7), and what `exec` answers in the state after its fetches, with its frame. Where a clause
rests on a choice that the spec marks as its own (a decision D<n> of spec/92_eei_decisions.md), the docstring names
it; log entry 12 says what they have in common. Every instruction with a register operand rests on D4 (a register byte
above 7 faults) and D12 (when a register is read), the codes inside the ranges of R44 on D30, and an operand word or a
stack word that lies across 0xFFFF on D27. -/

open Sys2Proof Sys2Proof.Machine

/-! ## Instructions: arithmetic (spec/41_arithmetic.md) -/

/-- R74: NOP, 0x00 or 0x80, costs its one byte and has no effect. -/
def Obligations.NopHasNoEffect : Prop :=
  RuleF0 0x00 .nop ∧ ∀ s : State, exec .nop s = .next s

/-- R75, R78, R81: ADD, SUB and MUL are 16-bit whatever W is and wrap modulo 65536; only reg1 changes. Rests on D4,
D12, D30. -/
def Obligations.RegisterArithmeticWrapsModulo65536 : Prop :=
  RuleFRR 0x01 .add ∧ RuleFRR 0x04 .sub ∧ RuleFRR 0x07 .mul ∧
  ∀ (reg1 reg2 : Reg) (s : State),
    (∃ t, exec (.add reg1 reg2) s = .next t ∧ Frame s t [reg1] [] s.flags 0 ∧
      (t.readReg reg1).toNat = ((s.readReg reg1).toNat + (s.readReg reg2).toNat) % 65536) ∧
    (∃ t, exec (.sub reg1 reg2) s = .next t ∧ Frame s t [reg1] [] s.flags 0 ∧
      ((t.readReg reg1).toNat : Int) = ((s.readReg reg1).toNat - (s.readReg reg2).toNat : Int) % 65536) ∧
    (∃ t, exec (.mul reg1 reg2) s = .next t ∧ Frame s t [reg1] [] s.flags 0 ∧
      (t.readReg reg1).toNat = (s.readReg reg1).toNat * (s.readReg reg2).toNat % 65536)

/-- R76, R79, R82, word form: ADDC, SUBC and MULC with a word immediate wrap modulo 65536; byte form: the low byte of
the register with the byte immediate, modulo 256, zero-extended over the whole register. The byte form rests on D6, the
rest on D4, D12, D30. -/
def Obligations.ImmediateArithmeticWrapsAtTheForm : Prop :=
  RuleFRI 0x02 .addc ∧ RuleFRI 0x05 .subc ∧ RuleFRI 0x08 .mulc ∧
  ∀ (w : Width) (r : Reg) (imm : Word) (s : State),
    (∃ t, exec (.addc w r imm) s = .next t ∧ Frame s t [r] [] s.flags 0 ∧
      (t.readReg r).toNat = ((s.readReg r).toNat + imm.toNat) % w.pick 65536 256) ∧
    (∃ t, exec (.subc w r imm) s = .next t ∧ Frame s t [r] [] s.flags 0 ∧
      ((t.readReg r).toNat : Int) = ((s.readReg r).toNat - imm.toNat : Int) % w.pick 65536 256) ∧
    (∃ t, exec (.mulc w r imm) s = .next t ∧ Frame s t [r] [] s.flags 0 ∧
      (t.readReg r).toNat = (s.readReg r).toNat * imm.toNat % w.pick 65536 256)

/-- R77, R80, R83: ADDA, SUBA and MULA with the memory operand of width W, which costs its 2 or 1 bytes. The byte form
rests on D6, the wrap of a word operand at 0xFFFF on D1 and D27, the rest on D4, D12, D30. -/
def Obligations.MemoryArithmeticWrapsAtTheForm : Prop :=
  RuleFRA 0x03 .adda ∧ RuleFRA 0x06 .suba ∧ RuleFRA 0x09 .mula ∧
  ∀ (w : Width) (r : Reg) (addr : Word) (s : State),
    (∃ t, exec (.adda w r addr) s = .next t ∧ Frame s t [r] [] s.flags (w.pick 2 1) ∧
      (t.readReg r).toNat = ((s.readReg r).toNat + (s.memRead addr w).toNat) % w.pick 65536 256) ∧
    (∃ t, exec (.suba w r addr) s = .next t ∧ Frame s t [r] [] s.flags (w.pick 2 1) ∧
      ((t.readReg r).toNat : Int) = ((s.readReg r).toNat - (s.memRead addr w).toNat : Int) % w.pick 65536 256) ∧
    (∃ t, exec (.mula w r addr) s = .next t ∧ Frame s t [r] [] s.flags (w.pick 2 1) ∧
      (t.readReg r).toNat = (s.readReg r).toNat * (s.memRead addr w).toNat % w.pick 65536 256)

/-- R84: DIV is unsigned and rounds down; a zero divisor latches DivideByZero and writes nothing. Rests on D4, D5, D8,
D12, D30. -/
def Obligations.DivideByRegister : Prop :=
  RuleFRR 0x0A .div ∧
  ∀ (reg1 reg2 : Reg) (s : State),
    (s.readReg reg2 = 0 → exec (.div reg1 reg2) s = .next { s with fault := some .divideByZero }) ∧
    (s.readReg reg2 ≠ 0 → ∃ t, exec (.div reg1 reg2) s = .next t ∧ Frame s t [reg1] [] s.flags 0 ∧
      (t.readReg reg1).toNat = (s.readReg reg1).toNat / (s.readReg reg2).toNat)

/-- R85: DIVC; in the byte form the register's low byte is divided, and the tested divisor is the 8-bit operand. Rests
on D4, D5, D6, D8, D12, D30. -/
def Obligations.DivideByImmediate : Prop :=
  RuleFRI 0x0B .divc ∧
  ∀ (w : Width) (r : Reg) (imm : Word) (s : State),
    (imm.toNat % w.pick 65536 256 = 0 →
      exec (.divc w r imm) s = .next { s with fault := some .divideByZero }) ∧
    (imm.toNat % w.pick 65536 256 ≠ 0 → ∃ t, exec (.divc w r imm) s = .next t ∧ Frame s t [r] [] s.flags 0 ∧
      (t.readReg r).toNat = ((s.readReg r).toNat % w.pick 65536 256) / (imm.toNat % w.pick 65536 256))

/-- R86: DIVA reads and charges its memory operand before it tests it. Rests on D4, D5, D6, D8, D12, D28, D30, and at
0xFFFF on D1 and D27. -/
def Obligations.DivideByMemory : Prop :=
  RuleFRA 0x0C .diva ∧
  ∀ (w : Width) (r : Reg) (addr : Word) (s : State),
    (s.memRead addr w = 0 →
      exec (.diva w r addr) s = .next { s with fault := some .divideByZero, cyc := s.cyc - w.pick 2 1 }) ∧
    (s.memRead addr w ≠ 0 →
      ∃ t, exec (.diva w r addr) s = .next t ∧ Frame s t [r] [] s.flags (w.pick 2 1) ∧
        (t.readReg r).toNat = ((s.readReg r).toNat % w.pick 65536 256) / (s.memRead addr w).toNat)

/-! ## Instructions: compare, increment, decrement, zero-extend (spec/42_compare_incdec_uxt.md) -/

/-- R87, R18: CMP writes N, the top bit of the 16-bit difference, and Z, and changes nothing else. Rests on D4, D9,
D12. -/
def Obligations.CompareRegisters : Prop :=
  RuleFRR 0x0E .cmp ∧
  ∀ (reg1 reg2 : Reg) (s : State),
    exec (.cmp reg1 reg2) s = .next { s with flags := { s.flags with
      n := decide (((s.readReg reg1).toNat - (s.readReg reg2).toNat : Int) % 65536 ≥ 32768)
      z := decide (s.readReg reg1 = s.readReg reg2) } }

/-- R88, R18: CMPA compares with the memory operand; in the byte form the register's low byte, with N from bit 7 of the
8-bit difference. Rests on D4, D6, D9, D12, and at 0xFFFF on D1 and D27. -/
def Obligations.CompareWithMemory : Prop :=
  RuleFRA 0x0F .cmpa ∧
  ∀ (r : Reg) (addr : Word) (s : State),
    exec (.cmpa .word r addr) s = .next { s with
      cyc := s.cyc - 2
      flags := { s.flags with
        n := decide (((s.readReg r).toNat - (s.memRead addr .word).toNat : Int) % 65536 ≥ 32768)
        z := decide (s.readReg r = s.memRead addr .word) } } ∧
    exec (.cmpa .byte r addr) s = .next { s with
      cyc := s.cyc - 1
      flags := { s.flags with
        n := decide (((s.readReg r).toNat - (s.readByte addr).toNat : Int) % 256 ≥ 128)
        z := decide ((s.readReg r).toNat % 256 = (s.readByte addr).toNat) } }

/-- R89, R91: INC and DEC are 16-bit whatever W is and write no flag. Rests on D4, D12. -/
def Obligations.IncrementAndDecrementRegister : Prop :=
  RuleFR 0x10 (fun _ r => .inc r) ∧ RuleFR 0x12 (fun _ r => .dec r) ∧
  ∀ (r : Reg) (s : State),
    (∃ t, exec (.inc r) s = .next t ∧ Frame s t [r] [] s.flags 0 ∧ t.readReg r = s.readReg r + 1) ∧
    (∃ t, exec (.dec r) s = .next t ∧ Frame s t [r] [] s.flags 0 ∧ t.readReg r = s.readReg r - 1)

/-- R90, R92: INCM and DECM read the operand of width W at `addr` and write back its neighbour modulo 65536 or 256; no
byte outside the operand, no register and no flag changes. Rests, at 0xFFFF, on D1 and D27. -/
def Obligations.IncrementAndDecrementMemory : Prop :=
  RuleFA 0x11 .incm ∧ RuleFA 0x13 .decm ∧
  ∀ (w : Width) (addr : Word) (s : State),
    (∃ t, exec (.incm w addr) s = .next t ∧ Frame s t [] (cells w addr) s.flags (w.pick 4 2) ∧
      (t.memRead addr w).toNat = ((s.memRead addr w).toNat + 1) % w.pick 65536 256) ∧
    (∃ t, exec (.decm w addr) s = .next t ∧ Frame s t [] (cells w addr) s.flags (w.pick 4 2) ∧
      ((t.memRead addr w).toNat : Int) = ((s.memRead addr w).toNat - 1 : Int) % w.pick 65536 256)

/-- R93: UXT clears the high byte of its register, does nothing else, and fetches nothing more. Rests on D4, D12. -/
def Obligations.ZeroExtendRegister : Prop :=
  RuleFR 0x20 (fun _ r => .uxt r) ∧
  ∀ (r : Reg) (s : State), ∃ t, exec (.uxt r) s = .next t ∧ Frame s t [r] [] s.flags 0 ∧
    (t.readReg r).toNat = (s.readReg r).toNat % 256

/-! ## Instructions: loads (spec/43_load.md) -/

/-- R95: LDR copies all 16 bits of one slot to another; PC and SP as either. Rests on D4, D12. -/
def Obligations.LoadRegister : Prop :=
  RuleFRR 0x30 .ldr ∧
  ∀ (reg1 reg2 : Reg) (s : State), ∃ t, exec (.ldr reg1 reg2) s = .next t ∧ Frame s t [reg1] [] s.flags 0 ∧
    t.readReg reg1 = s.readReg reg2

/-- R96: LDC writes the immediate, in the byte form zero-extended, to all 16 bits. Rests on D4. -/
def Obligations.LoadConstant : Prop :=
  RuleFRI 0x31 .ldc ∧
  ∀ (w : Width) (r : Reg) (imm : Word) (s : State), ∃ t, exec (.ldc w r imm) s = .next t ∧
    Frame s t [r] [] s.flags 0 ∧ t.readReg r = imm

/-- R97, R98: LDM writes the memory operand, in the byte form zero-extended, to all 16 bits. Rests on D4, D7, and at
0xFFFF on D1 and D27. -/
def Obligations.LoadMemory : Prop :=
  RuleFRA 0x32 .ldm ∧
  ∀ (r : Reg) (addr : Word) (s : State),
    (∃ t, exec (.ldm .word r addr) s = .next t ∧ Frame s t [r] [] s.flags 2 ∧
      (t.readReg r).toNat = (s.readByte addr).toNat + 256 * (s.readByte (addr + 1)).toNat) ∧
    (∃ t, exec (.ldm .byte r addr) s = .next t ∧ Frame s t [r] [] s.flags 1 ∧
      (t.readReg r).toNat = (s.readByte addr).toNat)

/-! ## Instructions: control transfer (spec/44_control_transfer.md) -/

/-- R100: JSR pushes the address of the instruction after it, little-endian, and jumps. Rests on D13, and at the ends
of the address space on D27. -/
def Obligations.CallPushesTheReturnAddress : Prop :=
  RuleFT 0x40 .jsr ∧
  ∀ (target : Word) (s : State), ∃ t, exec (.jsr target) s = .next t ∧
    Frame s t [.pc, .sp] (cells .word (s.sp - 2)) s.flags 2 ∧
    t.pc = target ∧ t.sp = s.sp - 2 ∧
    t.readByte (s.sp - 2) = loByte s.pc ∧ t.readByte (s.sp - 1) = hiByte s.pc

/-- R101: RTN pops a word into `pc`. -/
def Obligations.ReturnPopsThePc : Prop :=
  RuleF0 0x41 .rtn ∧
  ∀ s : State, exec .rtn s = .next { s with
    pc := wordOf (s.readByte s.sp) (s.readByte (s.sp + 1))
    sp := s.sp + 2
    cyc := s.cyc - 2 }

/-- R102: JMP writes its target to `pc`. -/
def Obligations.JumpSetsThePc : Prop :=
  RuleFT 0x42 .jmp ∧ ∀ (target : Word) (s : State), exec (.jmp target) s = .next { s with pc := target }

/-- R103: JRZ tests all 16 bits of its register; taken, the target word is fetched for 2 cycles, not taken, it is
stepped over without a charge. Rests on D4, D12. -/
def Obligations.BranchIfRegisterIsZero : Prop :=
  RuleFRT 0x43 .jrz ∧
  ∀ (r : Reg) (target : Word) (s : State),
    (s.readReg r = 0 → exec (.jrz r target) s = .next { s with pc := target, cyc := s.cyc - 2 }) ∧
    (s.readReg r ≠ 0 → exec (.jrz r target) s = .next { s with pc := s.pc + 2 })

/-- R104 to R110: the six compare-and-branch instructions with an immediate: unsigned 16-bit, the register on the left,
everything fetched and charged whether taken or not, and nothing but `pc` changes. Rests on D4, D11, D12, D30. -/
def Obligations.CompareAndBranchOnImmediate : Prop :=
  RuleFRIT 0x44 .jre ∧ RuleFRIT 0x45 .jrn ∧ RuleFRIT 0x46 .jrg ∧ RuleFRIT 0x47 .jrge ∧ RuleFRIT 0x48 .jrl ∧
  RuleFRIT 0x49 .jrle ∧
  ∀ (w : Width) (r : Reg) (imm target : Word) (s : State),
    exec (.jre w r imm target) s = .next { s with pc := if s.readReg r = imm then target else s.pc } ∧
    exec (.jrn w r imm target) s = .next { s with pc := if s.readReg r ≠ imm then target else s.pc } ∧
    exec (.jrg w r imm target) s = .next { s with
      pc := if (s.readReg r).toNat > imm.toNat then target else s.pc } ∧
    exec (.jrge w r imm target) s = .next { s with
      pc := if (s.readReg r).toNat ≥ imm.toNat then target else s.pc } ∧
    exec (.jrl w r imm target) s = .next { s with
      pc := if (s.readReg r).toNat < imm.toNat then target else s.pc } ∧
    exec (.jrle w r imm target) s = .next { s with
      pc := if (s.readReg r).toNat ≤ imm.toNat then target else s.pc }

/-- R104, R111 to R116: the six with a memory operand of width W, a byte zero-extended; the operand's 2 or 1 bytes are
charged whether taken or not. Rests on D4, D11, D12, D26, D30, and at 0xFFFF on D1 and D27. -/
def Obligations.CompareAndBranchOnMemory : Prop :=
  RuleFRAT 0x4A .jrem ∧ RuleFRAT 0x4B .jrnm ∧ RuleFRAT 0x4C .jrgm ∧ RuleFRAT 0x4D .jrgem ∧ RuleFRAT 0x4E .jrlm ∧
  RuleFRAT 0x4F .jrlem ∧
  ∀ (w : Width) (r : Reg) (addr target : Word) (s : State),
    exec (.jrem w r addr target) s = .next { s with
      cyc := s.cyc - w.pick 2 1, pc := if s.readReg r = s.memRead addr w then target else s.pc } ∧
    exec (.jrnm w r addr target) s = .next { s with
      cyc := s.cyc - w.pick 2 1, pc := if s.readReg r ≠ s.memRead addr w then target else s.pc } ∧
    exec (.jrgm w r addr target) s = .next { s with
      cyc := s.cyc - w.pick 2 1
      pc := if (s.readReg r).toNat > (s.memRead addr w).toNat then target else s.pc } ∧
    exec (.jrgem w r addr target) s = .next { s with
      cyc := s.cyc - w.pick 2 1
      pc := if (s.readReg r).toNat ≥ (s.memRead addr w).toNat then target else s.pc } ∧
    exec (.jrlm w r addr target) s = .next { s with
      cyc := s.cyc - w.pick 2 1
      pc := if (s.readReg r).toNat < (s.memRead addr w).toNat then target else s.pc } ∧
    exec (.jrlem w r addr target) s = .next { s with
      cyc := s.cyc - w.pick 2 1
      pc := if (s.readReg r).toNat ≤ (s.memRead addr w).toNat then target else s.pc }

/-! ## Instructions: stack (spec/45_stack.md) -/

/-- R117: PUSH pushes the whole register, as it was before `sp` moved, whatever W is. Rests on D4, D12, D13, and at
the ends of the address space on D27. -/
def Obligations.PushAlwaysPushesAWord : Prop :=
  RuleFR 0x60 (fun _ r => .push r) ∧
  ∀ (r : Reg) (s : State), ∃ t, exec (.push r) s = .next t ∧
    Frame s t [.sp] (cells .word (s.sp - 2)) s.flags 2 ∧ t.sp = s.sp - 2 ∧
    t.readByte (s.sp - 2) = loByte (s.readReg r) ∧ t.readByte (s.sp - 1) = hiByte (s.readReg r)

/-- R118: POP pops a word or a zero-extended byte; the register is written after `sp` has moved, so that for `POP SP`
the popped value wins. Rests on D4, D7, D13. -/
def Obligations.PopWritesTheRegisterAfterSp : Prop :=
  RuleFR 0x63 .pop ∧
  ∀ (w : Width) (r : Reg) (s : State), ∃ t, exec (.pop w r) s = .next t ∧
    Frame s t [r, .sp] [] s.flags (w.pick 2 1) ∧ t.readReg r = s.memRead s.sp w ∧
    (r ≠ .sp → t.sp = s.sp + BitVec.ofNat 16 (w.pick 2 1))

/-- R119: POPM pops the operand and then stores it at `addr`; the byte form leaves `mem[addr+1]` alone. Rests, at
0xFFFF, on D1 and D27. -/
def Obligations.PopToMemory : Prop :=
  RuleFA 0x64 .popm ∧
  ∀ (w : Width) (addr : Word) (s : State), ∃ t, exec (.popm w addr) s = .next t ∧
    Frame s t [.sp] (cells w addr) s.flags (w.pick 4 2) ∧ t.sp = s.sp + BitVec.ofNat 16 (w.pick 2 1) ∧
    t.memRead addr w = s.memRead s.sp w

/-- R120: PUSHS pushes the status byte, for whatever layout, below a byte 0x00. -/
def Obligations.PushStatus : Prop :=
  RuleF0 0x65 .pushs ∧
  ∀ s : State, ∃ t, exec .pushs s = .next t ∧
    Frame s t [.sp] (cells .word (s.sp - 2)) s.flags 2 ∧ t.sp = s.sp - 2 ∧
    t.readByte (s.sp - 2) = s.flags.pack s.layout ∧ t.readByte (s.sp - 1) = 0

/-- R121: POPS pops a word; its low byte gives all seven flags, for whatever layout, and its high byte is discarded.
Rests on D14 (a word is popped) and D3 (the unused bit is ignored). -/
def Obligations.PopStatus : Prop :=
  RuleF0 0x66 .pops ∧
  ∀ s : State, exec .pops s = .next { s with
    sp := s.sp + 2
    cyc := s.cyc - 2
    flags :=
      { n := (s.readByte s.sp).getLsbD s.layout.n
        o := (s.readByte s.sp).getLsbD s.layout.o
        b := (s.readByte s.sp).getLsbD s.layout.b
        d := (s.readByte s.sp).getLsbD s.layout.d
        i := (s.readByte s.sp).getLsbD s.layout.i
        z := (s.readByte s.sp).getLsbD s.layout.z
        c := (s.readByte s.sp).getLsbD s.layout.c } }

/-! ## Instructions: system (spec/46_system.md) -/

/-- R123: the RESET opcode clears registers, flags and every byte of memory and leaves `halted`, `fault` and, apart
from its own byte, `cyc` alone. That the clear is not charged is D15. -/
def Obligations.ResetOpcodeClearsTheCore : Prop :=
  RuleF0 0x7E .reset ∧
  ∀ s : State, ∃ t, exec .reset s = .next t ∧
    t = { State.reset with halted := s.halted, fault := s.fault, cyc := s.cyc, layout := s.layout } ∧
    (∀ r, t.readReg r = if r = .sp then 0xFFFF else 0x0000) ∧ ∀ a, t.readByte a = 0

/-- R124: HALT, 0x7F or 0xFF, sets `halted` and leaves `pc` at the address after it; the run ends at once with the
remaining budget returned; while `halted` is set every run is suppressed, and no instruction clears it, but external
reset does; a step that leaves `halted` set where it was not set ran HALT. -/
def Obligations.HaltSetsHalted : Prop :=
  RuleF0 0x7F .halt ∧ (∀ s : State, exec .halt s = .next { s with halted := true }) ∧
  (∀ (s : State) (w : Width), s.Starts [opByte w 0x7F] →
    runBudget s.cyc s = { s with halted := true, pc := s.pc + 1, cyc := s.cyc - 1 }) ∧
  (∀ (budget : Int) (s : State), s.halted = true → runBudget budget s = { s with cyc := budget }) ∧
  (∀ (i : Instr) (s t : State), exec i s = .next t → s.halted = true → t.halted = true) ∧
  (∀ s : State, s.externalReset.halted = false) ∧
  ∀ s t : State, step s = .next t → s.halted = false → t.halted = true →
    s.readByte s.pc = 0x7F ∨ s.readByte s.pc = 0xFF

/-! ## The primitives (spec/10_state.md, spec/20_memory.md, spec/40_execution_loop.md) -/

/-- R12: slots 0 to 5 are R0 to R5, slot 6 is `pc` and slot 7 is `sp`, by number, for reads and for writes; a write is
read back and changes no other slot; an index above 7 is no slot. -/
def Obligations.RegisterSlotsReadBack : Prop :=
  (∀ s : State, s.readReg .r0 = s.r0 ∧ s.readReg .r1 = s.r1 ∧ s.readReg .r2 = s.r2 ∧ s.readReg .r3 = s.r3 ∧
    s.readReg .r4 = s.r4 ∧ s.readReg .r5 = s.r5 ∧ s.readReg .pc = s.pc ∧ s.readReg .sp = s.sp) ∧
  (∀ (s : State) (v : Word), s.writeReg .r0 v = { s with r0 := v } ∧ s.writeReg .r1 v = { s with r1 := v } ∧
    s.writeReg .r2 v = { s with r2 := v } ∧ s.writeReg .r3 v = { s with r3 := v } ∧
    s.writeReg .r4 v = { s with r4 := v } ∧ s.writeReg .r5 v = { s with r5 := v } ∧
    s.writeReg .pc v = { s with pc := v } ∧ s.writeReg .sp v = { s with sp := v }) ∧
  (∀ (s : State) (r r' : Reg) (v : Word),
    (s.writeReg r v).readReg r' = if r' = r then v else s.readReg r') ∧
  (Reg.r0.byte = 0 ∧ Reg.r1.byte = 1 ∧ Reg.r2.byte = 2 ∧ Reg.r3.byte = 3 ∧ Reg.r4.byte = 4 ∧ Reg.r5.byte = 5 ∧
    Reg.pc.byte = 6 ∧ Reg.sp.byte = 7) ∧
  (∀ r : Reg, Reg.ofByte r.byte = some r) ∧ ∀ b : Byte, 7 < b.toNat → Reg.ofByte b = none

/-- R29 to R32: a byte write sets one cell and discards the high byte; a word write sets the cell and the one after it,
modulo 65536, low byte first; a read assembles them the same way; no other cell changes. Rests,
at 0xFFFF, on D1 and D27. -/
def Obligations.MemoryIsLittleEndian : Prop :=
  ∀ (s : State) (a b v : Word),
    (s.memWrite a .byte v).readByte b = (if b = a then loByte v else s.readByte b) ∧
    (s.memWrite a .word v).readByte b =
      (if b = a then loByte v else if b = a + 1 then hiByte v else s.readByte b) ∧
    (s.memRead a .byte).toNat = (s.readByte a).toNat ∧
    (s.memRead a .word).toNat = (s.readByte a).toNat + 256 * (s.readByte (a + 1)).toNat

/-- R34: what is written is read back, at 0xFFFF too (D1, D27). -/
def Obligations.MemoryRoundTrip : Prop :=
  ∀ (s : State) (a v : Word),
    (s.memWrite a .word v).memRead a .word = v ∧ ((s.memWrite a .byte v).memRead a .byte).toNat = v.toNat % 256

/-- R63 to R66: a push moves `sp` down and then writes there, a pop reads and then moves `sp` up, each charged by the
byte; a pop after a push of the same width returns the value and restores `sp`. -/
def Obligations.StackPrimitives : Prop :=
  ∀ (s : State) (v : Word),
    s.push .byte v = { s with sp := s.sp - 1, cyc := s.cyc - 1, mem := s.mem.write (s.sp - 1).toNat (loByte v) } ∧
    s.push .word v = { s with
      sp := s.sp - 2
      cyc := s.cyc - 2
      mem := (s.mem.write (s.sp - 2).toNat (loByte v)).write (s.sp - 1).toNat (hiByte v) } ∧
    s.pop .byte = (zext16 (s.readByte s.sp), { s with sp := s.sp + 1, cyc := s.cyc - 1 }) ∧
    s.pop .word = (wordOf (s.readByte s.sp) (s.readByte (s.sp + 1)), { s with sp := s.sp + 2, cyc := s.cyc - 2 }) ∧
    ((s.push .word v).pop .word).1 = v ∧ ((s.push .word v).pop .word).2.sp = s.sp ∧
    ((s.push .byte v).pop .byte).1.toNat = v.toNat % 256 ∧ ((s.push .byte v).pop .byte).2.sp = s.sp

/-- R19: for every injective layout, bit `pos(f)` of the packed byte is the flag `f`, a bit that is no flag's position
is 0, unpacking reads the same bits, and unpacking a packed byte gives the flags back. Rests on D3 (the unused bit)
and, for the layout after reset, on D2, the spec's own default (log entry 1). -/
def Obligations.StatusByteHoldsEachFlagAtItsPosition : Prop :=
  State.reset.layout = { n := 0, o := 1, b := 2, d := 3, i := 4, z := 5, c := 6 } ∧
  ∀ (l : Config.StatusLayout) (f : Flags), l.Injective →
    (f.pack l).getLsbD l.n = f.n ∧ (f.pack l).getLsbD l.o = f.o ∧ (f.pack l).getLsbD l.b = f.b ∧
    (f.pack l).getLsbD l.d = f.d ∧ (f.pack l).getLsbD l.i = f.i ∧ (f.pack l).getLsbD l.z = f.z ∧
    (f.pack l).getLsbD l.c = f.c ∧
    (∀ p : Fin 8, p ∉ l.positions → (f.pack l).getLsbD p = false) ∧
    Flags.unpack l (f.pack l) = f ∧
    ∀ b : Byte, Flags.unpack l b =
      { n := b.getLsbD l.n, o := b.getLsbD l.o, b := b.getLsbD l.b, d := b.getLsbD l.d, i := b.getLsbD l.i
        z := b.getLsbD l.z, c := b.getLsbD l.c }

/-- The remark of R73 on signedness, and the reading of the byte form as 8-bit arithmetic: the ALU's sum, difference
and low product are those of 16-bit or 8-bit vectors, a byte result zero-extended (D6), and the quotient is the
unsigned one (D8), absent exactly when the divisor is 0. -/
def Obligations.AluIsBitVectorArithmetic : Prop :=
  ∀ a b : Word,
    alu .add .word a b = some (a + b) ∧ alu .sub .word a b = some (a - b) ∧ alu .mul .word a b = some (a * b) ∧
    alu .div .word a b = (if b = 0 then none else some (a / b)) ∧
    alu .add .byte a b = some ((a.setWidth 8 + b.setWidth 8).setWidth 16) ∧
    alu .sub .byte a b = some ((a.setWidth 8 - b.setWidth 8).setWidth 16) ∧
    alu .mul .byte a b = some ((a.setWidth 8 * b.setWidth 8).setWidth 16) ∧
    alu .div .byte a b =
      (if b.setWidth 8 = 0 then none else some ((a.setWidth 8 / b.setWidth 8).setWidth 16))

/-! ## Encoding (spec/30_encoding.md) -/

/-- Words written out from R44 and R47 decode to what they stand for. -/
def Obligations.SomeEncodingsDecode : Prop :=
  decode [0x83, 0x02, 0x00, 0x02] = .ok (.adda .byte .r2 0x0200, []) ∧
  decode [0x0E, 0x01, 0x00] = .ok (.cmp .r1 .r0, []) ∧
  decode [0xB1, 0x02, 0xAB, 0x7F] = .ok (.ldc .byte .r2 0x00AB, [0x7F]) ∧
  decode [0x45, 0x00, 0x10, 0x00, 0x34, 0x12] = .ok (.jrn .word .r0 0x0010 0x1234, []) ∧
  decode [0xCC, 0x00, 0x00, 0x03, 0x1A, 0x00] = .ok (.jrgm .byte .r0 0x0300 0x001A, []) ∧
  decode [0xE3, 0x07] = .ok (.pop .byte .sp, []) ∧ decode [0xFE] = .ok (.reset, []) ∧
  decode [0x61] = .error (.illegalOpcode 0x61) ∧ decode [0x01, 0x00, 0x08] = .error (.illegalRegister 2)

/-- Decode and encode agree, for every well-formed instruction with every operand at every value, whatever bytes
follow. The encoder's choice of W = 0 where W is ignored is the model's (log entry 10). -/
def Obligations.DecodeInvertsEncode : Prop :=
  ∀ (i : Instr) (rest : List Byte), i.wf = true → decode (encode i ++ rest) = .ok (i, rest)

/-- The other direction: bytes that decode are the encoding of a well-formed instruction, but that an instruction
without a width choice may have either W (R45). -/
def Obligations.DecodedBytesAreTheEncoding : Prop :=
  ∀ (bs rest : List Byte) (i : Instr), decode bs = .ok (i, rest) →
    i.wf = true ∧
    ∃ (first first' : Byte) (tail : List Byte), encode i = first :: tail ∧ bs = first' :: (tail ++ rest) ∧
      opcodeOf first' = opcodeOf first ∧ (i.hasWidthChoice = true → first' = first)

/-! ## Steps and faults (spec/40_execution_loop.md, spec/60_exceptions.md) -/

/-- R67: a step of a running core whose bytes at `pc` decode runs the decoded instruction, in the state after its bytes
have been fetched and charged. Every address wraps, so six bytes always decide. -/
def Obligations.StepRunsTheDecodedInstruction : Prop :=
  ∀ (s : State) (i : Instr) (rest : List Byte), s.running = true →
    decode (s.bytesAt s.pc 6) = .ok (i, rest) → i.wf = true ∧ step s = exec i (s.fetched i.fetchedBytes)

/-- R51, R127: each of the 82 undefined opcode values, whatever bit 7 is, latches IllegalInstruction after its one byte
has been fetched and charged, and changes nothing else. That 0x61 and 0x62 are among them is D19, both values of W
D20. -/
def Obligations.UndefinedOpcodesFault : Prop :=
  ∀ s : State, s.running = true →
    (opcodeOf (s.readByte s.pc) ∈
      ([0x0D, 0x14, 0x15, 0x16, 0x17, 0x18, 0x19, 0x1A, 0x1B, 0x1C, 0x1D, 0x1E, 0x1F, 0x21, 0x22, 0x23, 0x24, 0x25,
        0x26, 0x27, 0x28, 0x29, 0x2A, 0x2B, 0x2C, 0x2D, 0x2E, 0x2F, 0x33, 0x34, 0x35, 0x36, 0x37, 0x38, 0x39, 0x3A,
        0x3B, 0x3C, 0x3D, 0x3E, 0x3F, 0x50, 0x51, 0x52, 0x53, 0x54, 0x55, 0x56, 0x57, 0x58, 0x59, 0x5A, 0x5B, 0x5C,
        0x5D, 0x5E, 0x5F, 0x61, 0x62, 0x67, 0x68, 0x69, 0x6A, 0x6B, 0x6C, 0x6D, 0x6E, 0x6F, 0x70, 0x71, 0x72, 0x73,
        0x74, 0x75, 0x76, 0x77, 0x78, 0x79, 0x7A, 0x7B, 0x7C, 0x7D] : List (BitVec 7)) ↔
      ∃ op, decode (s.bytesAt s.pc 6) = .error (.illegalOpcode op)) ∧
    ∀ op, decode (s.bytesAt s.pc 6) = .error (.illegalOpcode op) → step s = .next (s.faultedAfter 1)

/-- R128, R132: a register operand byte above 7 latches IllegalInstruction as soon as it is fetched: the bytes before it
and itself have been fetched and charged, no later byte has, and nothing else has changed. There is no other way for
the bytes at `pc` not to decode. Rests on D4. -/
def Obligations.BadRegisterBytesFault : Prop :=
  ∀ (s : State) (e : DecodeError), s.running = true → decode (s.bytesAt s.pc 6) = .error e →
    (∃ op, e = .illegalOpcode op) ∨
    ∃ n, e = .illegalRegister n ∧ (n = 1 ∨ n = 2) ∧ 7 < (s.readByte (s.pc + BitVec.ofNat 16 n)).toNat ∧
      step s = .next (s.faultedAfter (n + 1))

/-- R136: "an instruction once started always completes or faults", a fault is a next state too (log entry 4), and a
stopped core answers its state unchanged (the model's choice, log entry 2): every state has a next state. -/
def Obligations.StepAlwaysAnswersNext : Prop := ∀ s : State, ∃ t, step s = .next t

/-- R22, R23, R141: with the budget used up, halted or faulted, nothing is fetched and nothing changes (log entry
2). -/
def Obligations.StoppedCoreStaysAsItIs : Prop :=
  ∀ s : State, s.cyc ≤ 0 ∨ s.halted = true ∨ s.fault ≠ none → step s = .next s

/-- R130: a step that latches a fault has changed nothing but the latch, `pc` by the bytes it fetched, and `cyc` by
those and by the operand bytes it read; before it, no fault was latched and the core was not halted. Rests on D5. -/
def Obligations.FaultsArePrecise : Prop :=
  ∀ s t : State, step s = .next t → t.fault ≠ s.fault →
    s.fault = none ∧ s.halted = false ∧ ∃ fetched read : Nat, 1 ≤ fetched ∧ fetched ≤ 4 ∧ read ≤ 2 ∧
      t = { s with
        fault := t.fault
        pc := s.pc + BitVec.ofNat 16 fetched
        cyc := s.cyc - (fetched + read : Nat) }

/-- R20: no instruction but CMP, CMPA, POPS and RESET changes a flag. Rests on D10. -/
def Obligations.OnlyFourInstructionsChangeFlags : Prop :=
  ∀ (i : Instr) (s t : State), exec i s = .next t → t.flags ≠ s.flags →
    (∃ reg1 reg2, i = .cmp reg1 reg2) ∨ (∃ w r addr, i = .cmpa w r addr) ∨ i = .pops ∨ i = .reset

/-- R22, R124: `halted` changes in a step only from false to true, and only where the byte at `pc` is HALT. -/
def Obligations.OnlyHaltChangesHalted : Prop :=
  ∀ s t : State, step s = .next t → t.halted ≠ s.halted →
    s.halted = false ∧ (s.readByte s.pc = 0x7F ∨ s.readByte s.pc = 0xFF) ∧
    t = { s with halted := true, pc := s.pc + 1, cyc := s.cyc - 1 }

/-- R21: no flag influences what an instruction does, so neither I nor D selects anything: from two states that differ
in the flags alone, a step leads to two states that differ in the flags alone, and PUSHS, through which the flags are
observable, to two states that differ in the flags and the stored status byte alone; and B is set by nothing but the
byte that POPS unpacks. -/
def Obligations.FlagsDoNotInfluenceExecution : Prop :=
  (∀ (s : State) (f : Flags), (∀ rest, decode (s.bytesAt s.pc 6) ≠ .ok (.pushs, rest)) →
    ∃ t g, step s = .next t ∧ step { s with flags := f } = .next { t with flags := g }) ∧
  (∀ (s : State) (f : Flags), ∃ t m, exec .pushs s = .next t ∧
    exec .pushs { s with flags := f } = .next { t with flags := f, mem := m } ∧
    ∀ a : Word, a ≠ s.sp - 2 → m.read a.toNat = t.readByte a) ∧
  ∀ (i : Instr) (s t : State), exec i s = .next t → i ≠ .pops → t.flags.b = true → s.flags.b = true

/-- R24, R152: the counter influences nothing but whether an instruction starts: with any other positive budget the same
step is taken, and the counter falls by the same amount. -/
def Obligations.CycleCounterDoesNotInfluenceExecution : Prop :=
  ∀ (s : State) (c : Int), s.running = true → 0 < c →
    ∃ t, step s = .next t ∧ step { s with cyc := c } = .next { t with cyc := c - (s.cyc - t.cyc) }

/-- R154: the length and the cycles of every instruction are those of the table, a fault on a zero divisor charged in
full. -/
def Obligations.LengthsAndCyclesFollowTheTable : Prop :=
  ∀ (s : State) (i : Instr) (rest : List Byte), s.running = true →
    decode (s.bytesAt s.pc 6) = .ok (i, rest) →
    ∀ taken : Bool, (∀ r target, i = .jrz r target → taken = decide ((s.fetched 2).readReg r = 0)) →
      rest.length + (i.tableRow taken).1 = 6 ∧ ∃ t, step s = .next t ∧ t.cyc = s.cyc - (i.tableRow taken).2

/-! ## Invariants -/

/-- The invariant holds after reset. -/
def Obligations.InvariantHoldsAtReset : Prop := State.reset.Inv

/-- Every step keeps the invariant: the memory stays canonical, the layout injective, the counter not below −7 (R69),
and the core not both halted and faulted (R133). -/
def Obligations.StepKeepsTheInvariant : Prop := ∀ s t : State, s.Inv → step s = .next t → t.Inv

/-! ## Resets, runs and the host port -/

/-- R27, R142, R143: after power-on and after external reset every register is 0 but `sp`, 0xFFFF, every flag 0, every
byte of memory 0x00, and the core neither halted nor faulted; external reset leaves nothing of the state before but
STATUS_LAYOUT. Rests on D5, D17, D18. -/
def Obligations.ExternalResetValues : Prop :=
  (∀ r, State.reset.readReg r = if r = .sp then 0xFFFF else 0x0000) ∧
  State.reset.flags = { n := false, o := false, b := false, d := false, i := false, z := false, c := false } ∧
  (∀ a, State.reset.readByte a = 0) ∧ State.reset.halted = false ∧ State.reset.fault = none ∧ State.reset.cyc = 0 ∧
  ∀ s : State, s.externalReset = { State.reset with layout := s.layout }

/-- R71, R145: while a run is in progress every transaction of the host is refused; otherwise each has its effect and
charges nothing. The refusal stands for what no source says (log entry 7). -/
def Obligations.HostActsOnlyBetweenRuns : Prop :=
  ∀ s : State,
    (s.running = true → ∀ x, transact x s = .refused .transactionDuringRun) ∧
    (s.running = false →
      transact .externalReset s = .next s.externalReset ∧
      (∀ a v, ∃ t, transact (.writeMemory a v) s = .next t ∧ t = { s with mem := t.mem } ∧
        ∀ b, t.readByte b = if b = a then v else s.readByte b) ∧
      (∀ a, transact (.readMemory a) s = .next s) ∧
      ∀ budget, transact (.run budget) s = .next { s with cyc := budget })

/-- R68, R155: a run with any budget ends: `Run` reaches a state in which the loop condition is false. -/
def Obligations.EveryRunEnds : Prop := ∀ (budget : Int) (s : State), (runBudget budget s).running = false

/-- R68: the loop condition holds exactly where the counter is positive, the core is not halted and no fault is
latched; `Run(budget)` loads the counter and then repeats `Step` while the condition holds: where it holds, the run is a
step followed by the run from there, and where it does not, nothing is executed and the budget is returned. Rests on D5,
D16, D21. -/
def Obligations.RunIsTheLoop : Prop :=
  (∀ s : State, s.running = true ↔ 0 < s.cyc ∧ s.halted = false ∧ s.fault = none) ∧
  ∀ (budget : Int) (s : State),
    (({ s with cyc := budget } : State).running = false → runBudget budget s = { s with cyc := budget }) ∧
    (({ s with cyc := budget } : State).running = true →
      ∃ t, step { s with cyc := budget } = .next t ∧ runBudget budget s = runBudget t.cyc t)

/-- R69: a run that is given a positive budget ends with `−7 <= cyc <= budget`. (For a budget that is not positive R68
says that it is returned; log entry 8.) -/
def Obligations.RunOverdrawsByAtMostSeven : Prop :=
  ∀ (budget : Int) (s : State), 0 < budget → -7 ≤ (runBudget budget s).cyc ∧ (runBudget budget s).cyc ≤ budget

/-- R152: splitting a computation into two runs gives the result of one long run whose budget is what the first run used
and the second was given. -/
def Obligations.SplitRunsGiveTheSameResult : Prop :=
  ∀ (first second : Int) (s : State), 0 < second →
    (runBudget first s).halted = false → (runBudget first s).fault = none →
    runBudget second (runBudget first s) = runBudget (first - (runBudget first s).cyc + second) s

/-! ## Laws of pairs of instructions -/

/-- R122 (a): PUSH and then POP in word form leaves the pushed value in the register and `sp` as before, whatever else
changed in between, if `sp` and the two pushed bytes did not; the PUSH changes no register but `sp`, and the POP none
but `sp` and its own. Rests on D13, D27. -/
def Obligations.PopAfterPush : Prop :=
  ∀ (r r' : Reg) (s : State), ∃ t, exec (.push r) s = .next t ∧ (∀ q, q ≠ .sp → t.readReg q = s.readReg q) ∧
    ∀ t' : State, t'.sp = t.sp → t'.readByte t.sp = t.readByte t.sp → t'.readByte (t.sp + 1) = t.readByte (t.sp + 1) →
      ∃ u, exec (.pop .word r') t' = .next u ∧ u.readReg r' = s.readReg r ∧ (r' ≠ .sp → u.sp = s.sp) ∧
        ∀ q, q ≠ r' → q ≠ .sp → u.readReg q = t'.readReg q

/-- R122 (b): PUSHS and then POPS leaves all seven flags and `sp` as before, for every injective layout, whatever else
changed in between, if the layout, `sp` and the two pushed bytes did not. Rests on D3, D14, D27. -/
def Obligations.PopStatusAfterPushStatus : Prop :=
  ∀ s : State, s.layout.Injective → ∃ t, exec .pushs s = .next t ∧
    ∀ t' : State, t'.layout = t.layout → t'.sp = t.sp → t'.readByte t.sp = t.readByte t.sp →
      t'.readByte (t.sp + 1) = t.readByte (t.sp + 1) →
      ∃ u, exec .pops t' = .next u ∧ u.flags = s.flags ∧ u.sp = s.sp

/-- R122 (c): JSR and then RTN returns to the instruction after the JSR and restores `sp`, whatever the registers and
flags became in between, if `sp` and the two bytes of the return address did not change. -/
def Obligations.ReturnAfterCall : Prop :=
  ∀ (target : Word) (s : State), ∃ t, exec (.jsr target) s = .next t ∧
    ∀ t' : State, t'.sp = t.sp → t'.readByte t.sp = t.readByte t.sp → t'.readByte (t.sp + 1) = t.readByte (t.sp + 1) →
      ∃ u, exec .rtn t' = .next u ∧ u.pc = s.pc ∧ u.sp = s.sp

/-- R94: INC then DEC restores a register slot, and INCM then DECM of the same width and address every byte of memory,
across the wrap too. -/
def Obligations.DecrementUndoesIncrement : Prop :=
  (∀ (r : Reg) (s : State), ∃ t, exec (.inc r) s = .next t ∧ exec (.dec r) t = .next s) ∧
  ∀ (w : Width) (addr : Word) (s : State), ∃ t u, exec (.incm w addr) s = .next t ∧ exec (.decm w addr) t = .next u ∧
    ∀ a, u.readByte a = s.readByte a
end

