-- ==== Sys2Proof/Laws/Memory.lean ====
section
/-! SUPPORT. The memory as data: reads after writes, and the canonical form that every memory operation keeps. The read
laws need no canonical form, so they hold in every state. -/

namespace Sys2Proof.Machine

@[simp] theorem memory_read_nil (a : Nat) : Memory.read [] a = 0 := rfl

theorem memory_erase_absent (m : Memory) (a : Nat) : ∀ c ∈ m.erase a, c.1 ≠ a := by
  induction m with
  | nil => simp [Memory.erase]
  | cons c rest ih =>
    by_cases h : c.1 = a
    · simpa [Memory.erase, h] using ih
    · intro d hd
      simp only [Memory.erase, h, if_false, List.mem_cons] at hd
      rcases hd with rfl | hd
      · exact h
      · exact ih d hd

theorem memory_read_erase (m : Memory) (a b : Nat) : (m.erase a).read b = if b = a then 0 else m.read b := by
  induction m with
  | nil => simp [Memory.erase]
  | cons c rest ih =>
    by_cases h : c.1 = a
    · simp only [Memory.erase, h, if_true, ih, Memory.read, eq_comm (a := a)]
      split <;> rfl
    · simp only [Memory.erase, h, if_false, Memory.read, ih]
      split
      · next hb => subst hb; simp [h]
      · rfl

theorem memory_read_insert (m : Memory) (a b : Nat) (v : Byte) (h : ∀ c ∈ m, c.1 ≠ a) :
    (m.insert a v).read b = if b = a then v else m.read b := by
  induction m with
  | nil => simp [Memory.insert, Memory.read, eq_comm (a := a)]
  | cons c rest ih =>
    have hc : c.1 ≠ a := h c (by simp)
    have ih := ih fun d hd => h d (by simp [hd])
    by_cases hlt : a < c.1
    · simp [Memory.insert, Memory.read, hlt, eq_comm (a := a)]
    · simp only [Memory.insert, hlt, if_false, Memory.read, ih]
      split
      · next hb => subst hb; simp [hc]
      · rfl

/-- A read after a write: the written byte at its address, the byte from before everywhere else. -/
theorem memory_read_write (m : Memory) (a b : Nat) (v : Byte) :
    (m.write a v).read b = if b = a then v else m.read b := by
  by_cases hv : v = 0
  · subst hv; simpa [Memory.write] using memory_read_erase m a b
  · simp only [Memory.write, hv, if_false, memory_read_insert _ _ _ _ (memory_erase_absent m a), memory_read_erase]
    split <;> rfl

theorem memory_wfFrom_mono {lo lo' : Nat} {m : Memory} (h : Memory.wfFrom lo m = true) (hl : lo' ≤ lo) :
    Memory.wfFrom lo' m = true := by
  cases m with
  | nil => rfl
  | cons c rest =>
    simp only [Memory.wfFrom, Bool.and_eq_true, decide_eq_true_eq] at h ⊢
    exact ⟨⟨⟨by omega, h.1.1.2⟩, h.1.2⟩, h.2⟩

theorem memory_wfFrom_erase {lo : Nat} {m : Memory} (a : Nat) (h : Memory.wfFrom lo m = true) :
    Memory.wfFrom lo (m.erase a) = true := by
  induction m generalizing lo with
  | nil => rfl
  | cons c rest ih =>
    simp only [Memory.wfFrom, Bool.and_eq_true, decide_eq_true_eq] at h
    by_cases hc : c.1 = a
    · simp only [Memory.erase, hc, if_true]
      exact memory_wfFrom_mono (ih h.2) (by omega)
    · simp only [Memory.erase, hc, if_false, Memory.wfFrom, Bool.and_eq_true, decide_eq_true_eq]
      exact ⟨h.1, ih h.2⟩

theorem memory_wfFrom_insert {lo a : Nat} {m : Memory} {v : Byte} (h : Memory.wfFrom lo m = true)
    (hm : ∀ c ∈ m, c.1 ≠ a) (hlo : lo ≤ a) (ha : a < Config.memSize) (hv : v ≠ 0) :
    Memory.wfFrom lo (m.insert a v) = true := by
  induction m generalizing lo with
  | nil => simpa [Memory.insert, Memory.wfFrom, hlo, ha] using hv
  | cons c rest ih =>
    have hc : c.1 ≠ a := hm c (by simp)
    simp only [Memory.wfFrom, Bool.and_eq_true, decide_eq_true_eq] at h
    by_cases hlt : a < c.1
    · simp only [Memory.insert, hlt, if_true, Memory.wfFrom, Bool.and_eq_true, decide_eq_true_eq]
      exact ⟨⟨⟨hlo, ha⟩, hv⟩, ⟨⟨⟨hlt, h.1.1.2⟩, h.1.2⟩, h.2⟩⟩
    · simp only [Memory.insert, hlt, if_false, Memory.wfFrom, Bool.and_eq_true, decide_eq_true_eq]
      exact ⟨h.1, ih h.2 (fun d hd => hm d (by simp [hd])) (by omega)⟩

/-- A write to an address of the machine keeps the canonical form. -/
theorem memory_wf_write {m : Memory} {a : Nat} (v : Byte) (h : m.wf = true) (ha : a < Config.memSize) :
    (m.write a v).wf = true := by
  have he : Memory.wfFrom 0 (m.erase a) = true := memory_wfFrom_erase a h
  by_cases hv : v = 0
  · subst hv; simpa [Memory.write, Memory.wf] using he
  · simp only [Memory.write, hv, if_false, Memory.wf]
    exact memory_wfFrom_insert he (memory_erase_absent m a) (Nat.zero_le a) ha hv

/-- The empty memory, which reset and `Clear()` leave, is canonical. -/
@[simp] theorem memory_wf_nil : Memory.wf [] = true := rfl

theorem memory_read_eq_zero_of_wfFrom {lo a : Nat} {m : Memory} (h : Memory.wfFrom lo m = true) (ha : a < lo) :
    m.read a = 0 := by
  induction m generalizing lo with
  | nil => rfl
  | cons c rest ih =>
    simp only [Memory.wfFrom, Bool.and_eq_true, decide_eq_true_eq] at h
    simp only [Memory.read, show c.1 ≠ a by omega, if_false]
    exact ih h.2 (by omega)

theorem memory_ext_wfFrom {lo : Nat} {m m' : Memory} (h : Memory.wfFrom lo m = true) (h' : Memory.wfFrom lo m' = true)
    (hr : ∀ a, m.read a = m'.read a) : m = m' := by
  induction m generalizing lo m' with
  | nil =>
    cases m' with
    | nil => rfl
    | cons c rest =>
      simp only [Memory.wfFrom, Bool.and_eq_true, decide_eq_true_eq] at h'
      exact absurd (by simpa [Memory.read] using (hr c.1).symm) h'.1.2
  | cons c rest ih =>
    simp only [Memory.wfFrom, Bool.and_eq_true, decide_eq_true_eq] at h
    cases m' with
    | nil => exact absurd (by simpa [Memory.read] using hr c.1) h.1.2
    | cons c' rest' =>
      simp only [Memory.wfFrom, Bool.and_eq_true, decide_eq_true_eq] at h'
      have hc : c.1 = c'.1 := by
        rcases Nat.lt_trichotomy c.1 c'.1 with hlt | heq | hgt
        · have := hr c.1
          simp only [Memory.read, if_true, show c'.1 ≠ c.1 by omega, if_false,
            memory_read_eq_zero_of_wfFrom h'.2 (show c.1 < c'.1 + 1 by omega)] at this
          exact absurd this h.1.2
        · exact heq
        · have := hr c'.1
          simp only [Memory.read, if_true, show c.1 ≠ c'.1 by omega, if_false,
            memory_read_eq_zero_of_wfFrom h.2 (show c'.1 < c.1 + 1 by omega)] at this
          exact absurd this.symm h'.1.2
      have hv : c.2 = c'.2 := by simpa [Memory.read, hc] using hr c.1
      have hrest : rest = rest' := by
        refine ih h.2 (hc ▸ h'.2) fun a => ?_
        by_cases ha : c.1 = a
        · rw [memory_read_eq_zero_of_wfFrom h.2 (by omega), memory_read_eq_zero_of_wfFrom h'.2 (by omega)]
        · have := hr a
          simpa [Memory.read, ha, hc ▸ ha] using this
      rw [hrest, show c = c' from Prod.ext hc hv]

/-- In the canonical form, memories that read the same are the same data. -/
theorem memory_ext {m m' : Memory} (h : m.wf = true) (h' : m'.wf = true) (hr : ∀ a, m.read a = m'.read a) : m = m' :=
  memory_ext_wfFrom h h' hr

end Sys2Proof.Machine
end

