-- ==== Sys2Proof/Laws/Word.lean ====
section
/-! SUPPORT. Bytes and words: how `wordOf`, `loByte`, `hiByte` and `zext16` undo each other, and what the small
encodings of registers and first bytes decode to. -/

namespace Sys2Proof

@[simp] theorem loByte_toNat (v : Word) : (loByte v).toNat = v.toNat % 256 := by simp [loByte]

@[simp] theorem hiByte_toNat (v : Word) : (hiByte v).toNat = v.toNat / 256 := by
  have := v.isLt
  simp only [hiByte, BitVec.toNat_ofNat]
  omega

@[simp] theorem wordOf_toNat (b0 b1 : Byte) : (wordOf b0 b1).toNat = b0.toNat + 256 * b1.toNat := by
  have := b0.isLt
  have := b1.isLt
  simp only [wordOf, BitVec.toNat_ofNat]
  omega

@[simp] theorem zext16_toNat (b : Byte) : (zext16 b).toNat = b.toNat := by
  have := b.isLt
  simp only [zext16, BitVec.toNat_ofNat]
  omega

@[simp] theorem loByte_wordOf (b0 b1 : Byte) : loByte (wordOf b0 b1) = b0 := by
  apply BitVec.eq_of_toNat_eq
  have := b0.isLt
  simp only [loByte_toNat, wordOf_toNat]
  omega

@[simp] theorem hiByte_wordOf (b0 b1 : Byte) : hiByte (wordOf b0 b1) = b1 := by
  apply BitVec.eq_of_toNat_eq
  have := b0.isLt
  simp only [hiByte_toNat, wordOf_toNat]
  omega

@[simp] theorem wordOf_loByte_hiByte (v : Word) : wordOf (loByte v) (hiByte v) = v := by
  apply BitVec.eq_of_toNat_eq
  simp only [loByte_toNat, wordOf_toNat, hiByte_toNat]
  omega

@[simp] theorem loByte_zext16 (b : Byte) : loByte (zext16 b) = b := by
  apply BitVec.eq_of_toNat_eq
  have := b.isLt
  simp only [loByte_toNat, zext16_toNat]
  omega

@[simp] theorem hiByte_zext16 (b : Byte) : hiByte (zext16 b) = 0 := by
  apply BitVec.eq_of_toNat_eq
  simpa using b.isLt

/-- A word that fits a byte is the zero-extension of its low byte. -/
theorem zext16_loByte_of_lt {v : Word} (h : v.toNat < 256) : zext16 (loByte v) = v := by
  apply BitVec.eq_of_toNat_eq
  simp only [loByte_toNat, zext16_toNat]
  omega

@[simp] theorem reg_ofByte_byte (r : Reg) : Reg.ofByte r.byte = some r := by cases r <;> rfl

/-- A register byte above 7 selects no slot (R50). -/
theorem reg_ofByte_eq_none {b : Byte} : Reg.ofByte b = none ↔ 7 < b.toNat := by
  revert b; decide

/-- A register byte selects the slot whose index it is. -/
theorem reg_ofByte_eq_some {b : Byte} {r : Reg} : Reg.ofByte b = some r ↔ b = r.byte := by
  constructor
  · revert r b; decide
  · rintro rfl; exact reg_ofByte_byte r

/-- The first byte of either form carries the opcode (R42). -/
theorem opcodeOf_opByte (w : Width) (code : Byte) : opcodeOf (opByte w code) = opcodeOf code := by
  cases w <;> revert code <;> decide

/-- The first byte of an opcode below 0x80 carries the form (R43). -/
theorem widthOf_opByte {w : Width} {code : Byte} (h : code.toNat < 128) : widthOf (opByte w code) = w := by
  cases w <;> revert code <;> decide

/-- A first byte is the form's spelling of its own opcode. -/
theorem opByte_widthOf (b : Byte) : opByte (widthOf b) (BitVec.ofNat 8 (b.toNat % 128)) = b := by
  revert b; decide

@[simp] theorem opByte_word (code : Byte) : opByte .word code = code := rfl

@[simp] theorem wordBytes_length (v : Word) : (wordBytes v).length = 2 := rfl

@[simp] theorem immBytes_length (w : Width) (v : Word) :
    (immBytes w v).length = match w with | .word => 2 | .byte => 1 := by
  cases w <;> rfl

end Sys2Proof
end

