-- ==== Sys2Proof/Laws/State.lean ====
section
/-! SUPPORT. What each named update leaves of a state: one lemma per field per update. -/

namespace Sys2Proof.Machine

/-! ## Register writes -/

@[simp] theorem writeReg_flags (s : State) (r : Reg) (v : Word) :
    (s.writeReg r v).flags = s.flags := by cases r <;> rfl

@[simp] theorem writeReg_halted (s : State) (r : Reg) (v : Word) :
    (s.writeReg r v).halted = s.halted := by cases r <;> rfl

@[simp] theorem writeReg_fault (s : State) (r : Reg) (v : Word) :
    (s.writeReg r v).fault = s.fault := by cases r <;> rfl

@[simp] theorem writeReg_cyc (s : State) (r : Reg) (v : Word) : (s.writeReg r v).cyc = s.cyc := by cases r <;> rfl

@[simp] theorem writeReg_mem (s : State) (r : Reg) (v : Word) : (s.writeReg r v).mem = s.mem := by cases r <;> rfl

@[simp] theorem writeReg_layout (s : State) (r : Reg) (v : Word) :
    (s.writeReg r v).layout = s.layout := by cases r <;> rfl

@[simp] theorem readReg_writeReg_same (s : State) (r : Reg) (v : Word) : (s.writeReg r v).readReg r = v := by
  cases r <;> rfl

theorem readReg_writeReg_ne (s : State) {r q : Reg} (v : Word) (h : q ≠ r) :
    (s.writeReg r v).readReg q = s.readReg q := by
  cases r <;> cases q <;> first | rfl | exact absurd rfl h

@[simp] theorem writeReg_writeReg (s : State) (r : Reg) (u v : Word) :
    (s.writeReg r u).writeReg r v = s.writeReg r v := by
  cases r <;> rfl

@[simp] theorem writeReg_readReg (s : State) (r : Reg) : s.writeReg r (s.readReg r) = s := by cases r <;> rfl

@[simp] theorem readByte_writeReg (s : State) (r : Reg) (v a : Word) :
    (s.writeReg r v).readByte a = s.readByte a := by
  simp [State.readByte]

@[simp] theorem writeReg_pc_pc (s : State) (v : Word) : (s.writeReg .pc v).pc = v := rfl

@[simp] theorem writeReg_sp_sp (s : State) (v : Word) : (s.writeReg .sp v).sp = v := rfl

theorem writeReg_pc (s : State) {r : Reg} (v : Word) (h : r ≠ .pc) : (s.writeReg r v).pc = s.pc :=
  readReg_writeReg_ne s v h.symm

theorem writeReg_sp (s : State) {r : Reg} (v : Word) (h : r ≠ .sp) : (s.writeReg r v).sp = s.sp :=
  readReg_writeReg_ne s v h.symm

@[simp] theorem readReg_pc (s : State) : s.readReg .pc = s.pc := rfl

@[simp] theorem readReg_sp (s : State) : s.readReg .sp = s.sp := rfl

/-! ## Charging -/

@[simp] theorem charge_r0 (s : State) (n : Nat) : (s.charge n).r0 = s.r0 := rfl

@[simp] theorem charge_r1 (s : State) (n : Nat) : (s.charge n).r1 = s.r1 := rfl

@[simp] theorem charge_r2 (s : State) (n : Nat) : (s.charge n).r2 = s.r2 := rfl

@[simp] theorem charge_r3 (s : State) (n : Nat) : (s.charge n).r3 = s.r3 := rfl

@[simp] theorem charge_r4 (s : State) (n : Nat) : (s.charge n).r4 = s.r4 := rfl

@[simp] theorem charge_r5 (s : State) (n : Nat) : (s.charge n).r5 = s.r5 := rfl

@[simp] theorem charge_pc (s : State) (n : Nat) : (s.charge n).pc = s.pc := rfl

@[simp] theorem charge_sp (s : State) (n : Nat) : (s.charge n).sp = s.sp := rfl

@[simp] theorem charge_flags (s : State) (n : Nat) : (s.charge n).flags = s.flags := rfl

@[simp] theorem charge_halted (s : State) (n : Nat) : (s.charge n).halted = s.halted := rfl

@[simp] theorem charge_fault (s : State) (n : Nat) : (s.charge n).fault = s.fault := rfl

@[simp] theorem charge_cyc (s : State) (n : Nat) : (s.charge n).cyc = s.cyc - n := rfl

@[simp] theorem charge_mem (s : State) (n : Nat) : (s.charge n).mem = s.mem := rfl

@[simp] theorem charge_layout (s : State) (n : Nat) : (s.charge n).layout = s.layout := rfl

@[simp] theorem charge_readReg (s : State) (n : Nat) (r : Reg) : (s.charge n).readReg r = s.readReg r := by
  cases r <;> rfl

@[simp] theorem charge_readByte (s : State) (n : Nat) (a : Word) : (s.charge n).readByte a = s.readByte a := rfl

/-! ## Taking a fault -/

@[simp] theorem raise_r0 (s : State) (f : Fault) : (s.raise f).r0 = s.r0 := rfl

@[simp] theorem raise_r1 (s : State) (f : Fault) : (s.raise f).r1 = s.r1 := rfl

@[simp] theorem raise_r2 (s : State) (f : Fault) : (s.raise f).r2 = s.r2 := rfl

@[simp] theorem raise_r3 (s : State) (f : Fault) : (s.raise f).r3 = s.r3 := rfl

@[simp] theorem raise_r4 (s : State) (f : Fault) : (s.raise f).r4 = s.r4 := rfl

@[simp] theorem raise_r5 (s : State) (f : Fault) : (s.raise f).r5 = s.r5 := rfl

@[simp] theorem raise_pc (s : State) (f : Fault) : (s.raise f).pc = s.pc := rfl

@[simp] theorem raise_sp (s : State) (f : Fault) : (s.raise f).sp = s.sp := rfl

@[simp] theorem raise_flags (s : State) (f : Fault) : (s.raise f).flags = s.flags := rfl

@[simp] theorem raise_halted (s : State) (f : Fault) : (s.raise f).halted = s.halted := rfl

@[simp] theorem raise_fault (s : State) (f : Fault) : (s.raise f).fault = some f := rfl

@[simp] theorem raise_cyc (s : State) (f : Fault) : (s.raise f).cyc = s.cyc := rfl

@[simp] theorem raise_mem (s : State) (f : Fault) : (s.raise f).mem = s.mem := rfl

@[simp] theorem raise_layout (s : State) (f : Fault) : (s.raise f).layout = s.layout := rfl

@[simp] theorem raise_readReg (s : State) (f : Fault) (r : Reg) : (s.raise f).readReg r = s.readReg r := by
  cases r <;> rfl

@[simp] theorem raise_readByte (s : State) (f : Fault) (a : Word) : (s.raise f).readByte a = s.readByte a := rfl

/-! ## Jumping -/

@[simp] theorem jump_r0 (s : State) (target : Word) : (s.jump target).r0 = s.r0 := rfl

@[simp] theorem jump_r1 (s : State) (target : Word) : (s.jump target).r1 = s.r1 := rfl

@[simp] theorem jump_r2 (s : State) (target : Word) : (s.jump target).r2 = s.r2 := rfl

@[simp] theorem jump_r3 (s : State) (target : Word) : (s.jump target).r3 = s.r3 := rfl

@[simp] theorem jump_r4 (s : State) (target : Word) : (s.jump target).r4 = s.r4 := rfl

@[simp] theorem jump_r5 (s : State) (target : Word) : (s.jump target).r5 = s.r5 := rfl

@[simp] theorem jump_pc (s : State) (target : Word) : (s.jump target).pc = target := rfl

@[simp] theorem jump_sp (s : State) (target : Word) : (s.jump target).sp = s.sp := rfl

@[simp] theorem jump_flags (s : State) (target : Word) : (s.jump target).flags = s.flags := rfl

@[simp] theorem jump_halted (s : State) (target : Word) : (s.jump target).halted = s.halted := rfl

@[simp] theorem jump_fault (s : State) (target : Word) : (s.jump target).fault = s.fault := rfl

@[simp] theorem jump_cyc (s : State) (target : Word) : (s.jump target).cyc = s.cyc := rfl

@[simp] theorem jump_mem (s : State) (target : Word) : (s.jump target).mem = s.mem := rfl

@[simp] theorem jump_layout (s : State) (target : Word) : (s.jump target).layout = s.layout := rfl

@[simp] theorem jump_readByte (s : State) (target : Word) (a : Word) :
    (s.jump target).readByte a = s.readByte a := rfl

/-! ## Byte writes -/

@[simp] theorem writeByte_r0 (s : State) (x : Word) (v : Byte) : (s.writeByte x v).r0 = s.r0 := rfl

@[simp] theorem writeByte_r1 (s : State) (x : Word) (v : Byte) : (s.writeByte x v).r1 = s.r1 := rfl

@[simp] theorem writeByte_r2 (s : State) (x : Word) (v : Byte) : (s.writeByte x v).r2 = s.r2 := rfl

@[simp] theorem writeByte_r3 (s : State) (x : Word) (v : Byte) : (s.writeByte x v).r3 = s.r3 := rfl

@[simp] theorem writeByte_r4 (s : State) (x : Word) (v : Byte) : (s.writeByte x v).r4 = s.r4 := rfl

@[simp] theorem writeByte_r5 (s : State) (x : Word) (v : Byte) : (s.writeByte x v).r5 = s.r5 := rfl

@[simp] theorem writeByte_pc (s : State) (x : Word) (v : Byte) : (s.writeByte x v).pc = s.pc := rfl

@[simp] theorem writeByte_sp (s : State) (x : Word) (v : Byte) : (s.writeByte x v).sp = s.sp := rfl

@[simp] theorem writeByte_flags (s : State) (x : Word) (v : Byte) : (s.writeByte x v).flags = s.flags := rfl

@[simp] theorem writeByte_halted (s : State) (x : Word) (v : Byte) : (s.writeByte x v).halted = s.halted := rfl

@[simp] theorem writeByte_fault (s : State) (x : Word) (v : Byte) : (s.writeByte x v).fault = s.fault := rfl

@[simp] theorem writeByte_cyc (s : State) (x : Word) (v : Byte) : (s.writeByte x v).cyc = s.cyc := rfl

@[simp] theorem writeByte_mem (s : State) (x : Word) (v : Byte) : (s.writeByte x v).mem = s.mem.write x.toNat v := rfl

@[simp] theorem writeByte_layout (s : State) (x : Word) (v : Byte) : (s.writeByte x v).layout = s.layout := rfl

@[simp] theorem writeByte_readReg (s : State) (x : Word) (v : Byte) (r : Reg) :
    (s.writeByte x v).readReg r = s.readReg r := by
  cases r <;> rfl

/-- A byte read after a byte write. -/
theorem readByte_writeByte (s : State) (x a : Word) (v : Byte) :
    (s.writeByte x v).readByte a = if a = x then v else s.readByte a := by
  simp only [State.readByte, State.writeByte, memory_read_write]
  by_cases h : a = x
  · simp [h]
  · have : a.toNat ≠ x.toNat := fun e => h (BitVec.eq_of_toNat_eq e)
    simp [h, this]

/-! ## Memory writes of either width -/

@[simp] theorem memWrite_r0 (s : State) (x : Word) (w : Width) (v : Word) : (s.memWrite x w v).r0 = s.r0 := by
  cases w <;> rfl

@[simp] theorem memWrite_r1 (s : State) (x : Word) (w : Width) (v : Word) : (s.memWrite x w v).r1 = s.r1 := by
  cases w <;> rfl

@[simp] theorem memWrite_r2 (s : State) (x : Word) (w : Width) (v : Word) : (s.memWrite x w v).r2 = s.r2 := by
  cases w <;> rfl

@[simp] theorem memWrite_r3 (s : State) (x : Word) (w : Width) (v : Word) : (s.memWrite x w v).r3 = s.r3 := by
  cases w <;> rfl

@[simp] theorem memWrite_r4 (s : State) (x : Word) (w : Width) (v : Word) : (s.memWrite x w v).r4 = s.r4 := by
  cases w <;> rfl

@[simp] theorem memWrite_r5 (s : State) (x : Word) (w : Width) (v : Word) : (s.memWrite x w v).r5 = s.r5 := by
  cases w <;> rfl

@[simp] theorem memWrite_pc (s : State) (x : Word) (w : Width) (v : Word) : (s.memWrite x w v).pc = s.pc := by
  cases w <;> rfl

@[simp] theorem memWrite_sp (s : State) (x : Word) (w : Width) (v : Word) : (s.memWrite x w v).sp = s.sp := by
  cases w <;> rfl

@[simp] theorem memWrite_flags (s : State) (x : Word) (w : Width) (v : Word) :
    (s.memWrite x w v).flags = s.flags := by
  cases w <;> rfl

@[simp] theorem memWrite_halted (s : State) (x : Word) (w : Width) (v : Word) :
    (s.memWrite x w v).halted = s.halted := by
  cases w <;> rfl

@[simp] theorem memWrite_fault (s : State) (x : Word) (w : Width) (v : Word) :
    (s.memWrite x w v).fault = s.fault := by
  cases w <;> rfl

@[simp] theorem memWrite_cyc (s : State) (x : Word) (w : Width) (v : Word) : (s.memWrite x w v).cyc = s.cyc := by
  cases w <;> rfl

@[simp] theorem memWrite_layout (s : State) (x : Word) (w : Width) (v : Word) :
    (s.memWrite x w v).layout = s.layout := by
  cases w <;> rfl

@[simp] theorem memWrite_readReg (s : State) (x : Word) (w : Width) (v : Word) (r : Reg) :
    (s.memWrite x w v).readReg r = s.readReg r := by
  cases r <;> simp [State.readReg]

@[simp] theorem charge_memRead (s : State) (n : Nat) (a : Word) (w : Width) :
    (s.charge n).memRead a w = s.memRead a w := by
  cases w <;> rfl

end Sys2Proof.Machine
end

