-- ==== Sys2Proof/Laws/Ops.lean ====
section
/-! SUPPORT. For each shared operation, once, what it does: the lemmas to cite instead of unfolding it. -/

namespace Sys2Proof.Machine

/-! ## Memory of either width -/

@[simp] theorem memRead_byte (s : State) (a : Word) : s.memRead a .byte = zext16 (s.readByte a) := rfl

@[simp] theorem memRead_word (s : State) (a : Word) :
    s.memRead a .word = wordOf (s.readByte a) (s.readByte (a + 1)) := rfl

theorem word_add_one_ne (a : Word) : a + 1 ≠ a := by bv_omega

theorem readByte_memWrite_byte (s : State) (x a v : Word) :
    (s.memWrite x .byte v).readByte a = if a = x then loByte v else s.readByte a :=
  readByte_writeByte s x a _

theorem readByte_memWrite_word (s : State) (x a v : Word) :
    (s.memWrite x .word v).readByte a =
      if a = x then loByte v else if a = x + 1 then hiByte v else s.readByte a := by
  simp only [State.memWrite, readByte_writeByte]
  by_cases h : a = x
  · subst h; simp
  · simp [h]

/-- A memory write changes no byte outside the cells of its operand. -/
theorem readByte_memWrite_outside (s : State) {x a : Word} {w : Width} (v : Word) (h : a ∉ cells w x) :
    (s.memWrite x w v).readByte a = s.readByte a := by
  cases w with
  | byte => rw [readByte_memWrite_byte, if_neg (by simpa [cells] using h)]
  | word =>
    simp only [cells, List.mem_cons, List.not_mem_nil, or_false, not_or] at h
    rw [readByte_memWrite_word, if_neg h.1, if_neg h.2]

/-- A memory read after a write to the same operand: the part of the value that the width keeps. -/
theorem memRead_memWrite (s : State) (a : Word) (w : Width) (v : Word) :
    ((s.memWrite a w v).memRead a w).toNat = w.part v := by
  cases w with
  | word =>
    rw [memRead_word, readByte_memWrite_word, readByte_memWrite_word, if_pos rfl, if_neg (word_add_one_ne a),
      if_pos rfl, wordOf_loByte_hiByte]
    exact (Nat.mod_eq_of_lt v.isLt).symm
  | byte =>
    rw [memRead_byte, readByte_memWrite_byte, if_pos rfl, zext16_toNat, loByte_toNat]
    rfl

/-- Every memory write keeps the canonical form. -/
theorem memWrite_wf {s : State} (x : Word) (w : Width) (v : Word) (h : s.mem.wf = true) :
    (s.memWrite x w v).mem.wf = true := by
  cases w with
  | byte => exact memory_wf_write _ h x.isLt
  | word => exact memory_wf_write _ (memory_wf_write _ h x.isLt) (x + 1).isLt

/-- The memory after reset has the canonical form. -/
theorem reset_mem_wf : State.reset.mem.wf = true := rfl

/-! ## The ALU -/

@[simp] theorem part_word (v : Word) : Width.part .word v = v.toNat := Nat.mod_eq_of_lt v.isLt

@[simp] theorem part_byte (v : Word) : Width.part .byte v = v.toNat % 256 := rfl

theorem part_lt (w : Width) (v : Word) : w.part v < w.modulus := Nat.mod_lt _ (by cases w <;> decide)

theorem modulus_le (w : Width) : w.modulus ≤ 65536 := by cases w <;> decide

theorem sum_toNat (w : Width) (a b : Word) : (sum w a b).toNat = (w.part a + w.part b) % w.modulus := by
  have h := modulus_le w
  have : 0 < w.modulus := by cases w <;> decide
  have := Nat.mod_lt (w.part a + w.part b) this
  simp only [sum, BitVec.toNat_ofNat]
  omega

theorem difference_toNat (w : Width) (a b : Word) :
    (difference w a b).toNat = (w.part a + (w.modulus - w.part b)) % w.modulus := by
  have h := modulus_le w
  have : 0 < w.modulus := by cases w <;> decide
  have := Nat.mod_lt (w.part a + (w.modulus - w.part b)) this
  simp only [difference, BitVec.toNat_ofNat]
  omega

/-- The ALU answers none exactly for a zero divisor. -/
theorem alu_eq_none_iff (k : AluOp) (w : Width) (a b : Word) : alu k w a b = none ↔ k = .div ∧ w.part b = 0 := by
  cases k <;> simp [alu]

/-- What `aluInto` can do: write the result, or latch DivideByZero. -/
theorem aluInto_cases (s : State) (k : AluOp) (w : Width) (r : Reg) (b : Word) :
    (∃ v, alu k w (s.readReg r) b = some v ∧ s.aluInto k w r b = s.writeReg r v) ∨
    (k = .div ∧ w.part b = 0 ∧ s.aluInto k w r b = s.raise .divideByZero) := by
  cases h : alu k w (s.readReg r) b with
  | some v => exact .inl ⟨v, rfl, by simp [State.aluInto, h]⟩
  | none =>
    have := (alu_eq_none_iff k w _ b).1 h
    exact .inr ⟨this.1, this.2, by simp [State.aluInto, h]⟩

/-! ## The counter -/

@[simp] theorem fetched_running_fields (s : State) (n : Nat) :
    (s.fetched n).halted = s.halted ∧ (s.fetched n).fault = s.fault ∧ (s.fetched n).flags = s.flags ∧
      (s.fetched n).mem = s.mem ∧ (s.fetched n).layout = s.layout ∧ (s.fetched n).sp = s.sp :=
  ⟨rfl, rfl, rfl, rfl, rfl, rfl⟩

/-- The loop condition of R68, spelled out. -/
theorem running_iff (s : State) : s.running = true ↔ 0 < s.cyc ∧ s.halted = false ∧ s.fault = none := by
  simp [State.running, and_assoc]

theorem step_of_running {s : State} (h : s.running = true) :
    step s = match s.fetchInstr with
      | .ok (i, t) => exec i t
      | .error t => .next t := by
  show (match s.running with
    | true => match s.fetchInstr with
      | .ok (i, t) => exec i t
      | .error t => .next t
    | false => .next s) = _
  rw [h]

theorem step_of_not_running {s : State} (h : s.running = false) : step s = .next s := by simp only [step, h]

/-! ## Fetching -/

@[simp] theorem fetched_zero (s : State) : s.fetched 0 = s := by simp [State.fetched]

@[simp] theorem fetched_fetched (s : State) (m n : Nat) : (s.fetched m).fetched n = s.fetched (m + n) := by
  simp only [State.fetched, State.mk.injEq, true_and, and_true]
  refine ⟨?_, by push_cast; omega⟩
  rw [BitVec.add_assoc, ← BitVec.ofNat_add]

@[simp] theorem fetched_pc (s : State) (n : Nat) : (s.fetched n).pc = s.pc + BitVec.ofNat 16 n := rfl

@[simp] theorem fetched_cyc (s : State) (n : Nat) : (s.fetched n).cyc = s.cyc - n := rfl

@[simp] theorem fetched_readByte (s : State) (n : Nat) (a : Word) : (s.fetched n).readByte a = s.readByte a := rfl

theorem fetched_readReg (s : State) (n : Nat) {r : Reg} (h : r ≠ .pc) : (s.fetched n).readReg r = s.readReg r := by
  cases r <;> first | rfl | exact absurd rfl h

theorem fetchByte_eq (s : State) : s.fetchByte = (s.readByte s.pc, s.fetched 1) := rfl

theorem fetchWord_eq (s : State) :
    s.fetchWord = (wordOf (s.readByte s.pc) (s.readByte (s.pc + 1)), s.fetched 2) := rfl

theorem fetchImm_eq (s : State) (w : Width) : s.fetchImm w = (s.memRead s.pc w, s.fetched w.bytes) := by
  cases w <;> rfl

/-- What `FetchReg()` can do: answer the slot of a byte up to 7, or raise IllegalInstruction; the byte has been fetched
and charged either way. -/
theorem fetchReg_cases (s : State) :
    (∃ r, s.readByte s.pc = r.byte ∧ s.fetchReg = .ok (r, s.fetched 1)) ∨
    (7 < (s.readByte s.pc).toNat ∧ s.fetchReg = .error (s.faultedAfter 1)) := by
  cases h : Reg.ofByte (s.readByte s.pc) with
  | some r => exact .inl ⟨r, reg_ofByte_eq_some.1 h, by simp only [State.fetchReg, fetchByte_eq, h]⟩
  | none => exact .inr ⟨reg_ofByte_eq_none.1 h, by simp only [State.fetchReg, fetchByte_eq, h]; rfl⟩

theorem fetchReg_of_byte {s : State} {r : Reg} (h : s.readByte s.pc = r.byte) :
    s.fetchReg = .ok (r, s.fetched 1) := by
  simp only [State.fetchReg, fetchByte_eq, h, reg_ofByte_byte]

theorem fetchReg_of_bad {s : State} (h : 7 < (s.readByte s.pc).toNat) : s.fetchReg = .error (s.faultedAfter 1) := by
  simp only [State.fetchReg, fetchByte_eq, reg_ofByte_eq_none.2 h]
  rfl

/-! ## Data and stack -/

theorem loadData_eq (s : State) (a : Word) (w : Width) : s.loadData a w = (s.memRead a w, s.charge w.bytes) := rfl

@[simp] theorem storeData_cyc (s : State) (a : Word) (w : Width) (v : Word) :
    (s.storeData a w v).cyc = s.cyc - w.bytes := by
  simp [State.storeData]

@[simp] theorem storeData_readReg (s : State) (a : Word) (w : Width) (v : Word) (r : Reg) :
    (s.storeData a w v).readReg r = s.readReg r := by
  simp [State.storeData]

/-- A push moves `sp` down by the width, writes there, charges, and changes nothing else. -/
theorem push_eq (s : State) (w : Width) (v : Word) :
    s.push w v = { s with
      sp := s.sp - BitVec.ofNat 16 w.bytes
      cyc := s.cyc - w.bytes
      mem := (s.memWrite (s.sp - BitVec.ofNat 16 w.bytes) w v).mem } := by
  cases w <;> rfl

/-- A pop reads at `sp`, moves it up by the width, charges, and changes nothing else. -/
theorem pop_eq (s : State) (w : Width) :
    s.pop w = (s.memRead s.sp w, { s with sp := s.sp + BitVec.ofNat 16 w.bytes, cyc := s.cyc - w.bytes }) := rfl

/-- What a push leaves in memory is what a memory write at the lowered `sp` leaves. -/
theorem push_readByte (s : State) (w : Width) (v a : Word) :
    (s.push w v).readByte a = (s.memWrite (s.sp - BitVec.ofNat 16 w.bytes) w v).readByte a := by
  rw [push_eq]
  rfl

/-- The same for an operand of either width. -/
theorem push_memRead (s : State) (w w' : Width) (v a : Word) :
    (s.push w v).memRead a w' = (s.memWrite (s.sp - BitVec.ofNat 16 w.bytes) w v).memRead a w' := by
  rw [push_eq]
  cases w' <;> rfl

/-- A push keeps the canonical form. -/
theorem push_wf {s : State} (w : Width) (v : Word) (h : s.mem.wf = true) : (s.push w v).mem.wf = true := by
  rw [push_eq]
  exact memWrite_wf _ w v h

/-- A store keeps the canonical form. -/
theorem storeData_wf {s : State} (a : Word) (w : Width) (v : Word) (h : s.mem.wf = true) :
    (s.storeData a w v).mem.wf = true := memWrite_wf a w v h

/-! ## Branches -/

/-- A branch writes `pc` or leaves it, and changes nothing else. -/
theorem branch_eq (s : State) (k : Cond) (r : Reg) (v target : Word) :
    s.branch k r v target = { s with pc := if k.holds (s.readReg r) v then target else s.pc } := by
  unfold State.branch
  split <;> rfl

/-- A branch on a memory operand also charges the operand. -/
theorem branchMem_eq (s : State) (k : Cond) (w : Width) (r : Reg) (a target : Word) :
    s.branchMem k w r a target = { s with
      cyc := s.cyc - w.bytes
      pc := if k.holds (s.readReg r) (s.memRead a w) then target else s.pc } := by
  simp only [State.branchMem, branch_eq, loadData_eq, charge_readReg]
  rfl

/-! ## The resets -/

/-- The RESET opcode's state: everything as after reset but `halted`, `fault`, `cyc` and the layout. -/
theorem resetCore_eq (s : State) :
    s.resetCore = { State.reset with halted := s.halted, fault := s.fault, cyc := s.cyc, layout := s.layout } := by
  simp [State.resetCore, State.clearMem, State.reset, Flags.unpack, Flags.clear]

end Sys2Proof.Machine
end

