-- ==== Sys2Proof/Laws/Fetch.lean ====
section
/-! SUPPORT. How the bytes of each format come to be executed: one lemma per format of R47, from its row of the opcode
table. -/

namespace Sys2Proof.Machine

/-- Where the first byte at `pc` spells an opcode of the table, the fetch goes on with the operands of its format. -/
theorem fetchInstr_of_format {s : State} {w : Width} {code : Byte} {f : Format} (hc : code.toNat < 128)
    (hf : opcodeFormat (opcodeOf code) = some f) (h : s.readByte s.pc = opByte w code) :
    s.fetchInstr = State.fetchOperands w f (s.fetched 1) := by
  simp only [State.fetchInstr, fetchByte_eq, h, opcodeOf_opByte, hf, widthOf_opByte hc]

/-- Where the first byte spells no opcode of the table, the fetch raises IllegalInstruction after it. -/
theorem fetchInstr_of_illegal {s : State} (h : opcodeFormat (opcodeOf (s.readByte s.pc)) = none) :
    s.fetchInstr = .error (s.faultedAfter 1) := by
  simp only [State.fetchInstr, fetchByte_eq, h]
  rfl

/-- A format that begins with a register raises after its byte if that is above 7. -/
theorem firstRegisterChecked_of_format {code : Byte} {f : Format} (hc : code.toNat < 128)
    (hf : opcodeFormat (opcodeOf code) = some f)
    (hx : ∀ w s t, State.fetchReg s = .error t → State.fetchOperands w f s = .error t) :
    FirstRegisterChecked code := by
  rintro s w x ⟨hr, hb⟩ h7
  simp only [List.length, State.bytesAt, List.cons.injEq] at hb
  have hbad : (s.fetched 1).fetchReg = .error ((s.fetched 1).faultedAfter 1) :=
    fetchReg_of_bad (by rw [fetched_readByte, fetched_pc, ← BitVec.ofNat_eq_ofNat, hb.2.1]; exact h7)
  rw [step_of_running hr, fetchInstr_of_format hc hf hb.1, hx _ _ _ hbad]
  simp [State.faultedAfter]

theorem ruleF0_of_format {code : Byte} {i : Instr} (hc : code.toNat < 128)
    (hf : opcodeFormat (opcodeOf code) = some (.f0 i)) : RuleF0 code i := by
  rintro s w ⟨hr, hb⟩
  simp only [List.length, State.bytesAt, List.cons.injEq] at hb
  rw [step_of_running hr, fetchInstr_of_format hc hf hb.1]
  rfl

theorem ruleFR_of_format {code : Byte} {f : Width → Reg → Instr} (hc : code.toNat < 128)
    (hf : opcodeFormat (opcodeOf code) = some (.fr f)) : RuleFR code f := by
  refine ⟨firstRegisterChecked_of_format hc hf fun w s t h => ?_, ?_⟩
  · simp [State.fetchOperands, h, bind, Except.bind]
  · rintro s w r ⟨hr, hb⟩
    simp only [List.length, State.bytesAt, List.cons.injEq, BitVec.ofNat_eq_ofNat] at hb
    rw [step_of_running hr, fetchInstr_of_format hc hf hb.1]
    simp [State.fetchOperands, fetchReg_of_byte (s := s.fetched 1) hb.2.1, bind, Except.bind, pure, Except.pure]

theorem ruleFRR_of_format {code : Byte} {f : Reg → Reg → Instr} (hc : code.toNat < 128)
    (hf : opcodeFormat (opcodeOf code) = some (.frr f)) : RuleFRR code f := by
  refine ⟨firstRegisterChecked_of_format hc hf fun w s t h => ?_, ?_, ?_⟩
  · simp [State.fetchOperands, h, bind, Except.bind]
  · rintro s w r y ⟨hr, hb⟩ h7
    simp only [List.length, State.bytesAt, List.cons.injEq, BitVec.add_assoc, BitVec.ofNat_eq_ofNat,
      BitVec.reduceAdd] at hb
    rw [step_of_running hr, fetchInstr_of_format hc hf hb.1]
    have hbad : (s.fetched 2).fetchReg = .error ((s.fetched 2).faultedAfter 1) :=
      fetchReg_of_bad (by rw [fetched_readByte, fetched_pc, hb.2.2.1]; exact h7)
    simp [State.fetchOperands, fetchReg_of_byte (s := s.fetched 1) hb.2.1, hbad, bind, Except.bind,
      State.faultedAfter]
  · rintro s w r q ⟨hr, hb⟩
    simp only [List.length, State.bytesAt, List.cons.injEq, BitVec.add_assoc, BitVec.ofNat_eq_ofNat,
      BitVec.reduceAdd] at hb
    rw [step_of_running hr, fetchInstr_of_format hc hf hb.1]
    simp [State.fetchOperands, fetchReg_of_byte (s := s.fetched 1) hb.2.1,
      fetchReg_of_byte (s := s.fetched 2) hb.2.2.1, bind, Except.bind, pure, Except.pure]

theorem ruleFRI_of_format {code : Byte} {f : Width → Reg → Word → Instr} (hc : code.toNat < 128)
    (hf : opcodeFormat (opcodeOf code) = some (.fri f)) : RuleFRI code f := by
  refine ⟨firstRegisterChecked_of_format hc hf fun w s t h => ?_, ?_, ?_⟩
  · simp [State.fetchOperands, h, bind, Except.bind]
  · rintro s r lo hi ⟨hr, hb⟩
    simp only [List.length, State.bytesAt, List.cons.injEq, BitVec.add_assoc, BitVec.ofNat_eq_ofNat,
      BitVec.reduceAdd] at hb
    rw [step_of_running hr, fetchInstr_of_format hc hf hb.1]
    simp [State.fetchOperands, fetchReg_of_byte (s := s.fetched 1) hb.2.1, fetchImm_eq, Width.bytes, bind,
      Except.bind, pure, Except.pure, BitVec.add_assoc, hb]
  · rintro s r x ⟨hr, hb⟩
    simp only [List.length, State.bytesAt, List.cons.injEq, BitVec.add_assoc, BitVec.ofNat_eq_ofNat,
      BitVec.reduceAdd] at hb
    rw [step_of_running hr, fetchInstr_of_format hc hf hb.1]
    simp [State.fetchOperands, fetchReg_of_byte (s := s.fetched 1) hb.2.1, fetchImm_eq, Width.bytes, bind,
      Except.bind, pure, Except.pure, hb]

theorem ruleFRA_of_format {code : Byte} {f : Width → Reg → Word → Instr} (hc : code.toNat < 128)
    (hf : opcodeFormat (opcodeOf code) = some (.fra f)) : RuleFRA code f := by
  refine ⟨firstRegisterChecked_of_format hc hf fun w s t h => ?_, ?_⟩
  · simp [State.fetchOperands, h, bind, Except.bind]
  · rintro s w r lo hi ⟨hr, hb⟩
    simp only [List.length, State.bytesAt, List.cons.injEq, BitVec.add_assoc, BitVec.ofNat_eq_ofNat,
      BitVec.reduceAdd] at hb
    rw [step_of_running hr, fetchInstr_of_format hc hf hb.1]
    simp [State.fetchOperands, fetchReg_of_byte (s := s.fetched 1) hb.2.1, fetchWord_eq, bind, Except.bind, pure,
      Except.pure, BitVec.add_assoc, hb]

theorem ruleFA_of_format {code : Byte} {f : Width → Word → Instr} (hc : code.toNat < 128)
    (hf : opcodeFormat (opcodeOf code) = some (.fa f)) : RuleFA code f := by
  rintro s w lo hi ⟨hr, hb⟩
  simp only [List.length, State.bytesAt, List.cons.injEq, BitVec.add_assoc, BitVec.ofNat_eq_ofNat,
    BitVec.reduceAdd] at hb
  rw [step_of_running hr, fetchInstr_of_format hc hf hb.1]
  simp [State.fetchOperands, fetchWord_eq, BitVec.add_assoc, hb]

theorem ruleFT_of_format {code : Byte} {f : Word → Instr} (hc : code.toNat < 128)
    (hf : opcodeFormat (opcodeOf code) = some (.ft f)) : RuleFT code f := by
  rintro s w lo hi ⟨hr, hb⟩
  simp only [List.length, State.bytesAt, List.cons.injEq, BitVec.add_assoc, BitVec.ofNat_eq_ofNat,
    BitVec.reduceAdd] at hb
  rw [step_of_running hr, fetchInstr_of_format hc hf hb.1]
  simp [State.fetchOperands, fetchWord_eq, BitVec.add_assoc, hb]

theorem ruleFRT_of_format {code : Byte} {f : Reg → Word → Instr} (hc : code.toNat < 128)
    (hf : opcodeFormat (opcodeOf code) = some (.frt f)) : RuleFRT code f := by
  refine ⟨firstRegisterChecked_of_format hc hf fun w s t h => ?_, ?_⟩
  · simp [State.fetchOperands, h, bind, Except.bind]
  · rintro s w r lo hi ⟨hr, hb⟩
    simp only [List.length, State.bytesAt, List.cons.injEq, BitVec.add_assoc, BitVec.ofNat_eq_ofNat,
      BitVec.reduceAdd] at hb
    rw [step_of_running hr, fetchInstr_of_format hc hf hb.1]
    simp [State.fetchOperands, fetchReg_of_byte (s := s.fetched 1) hb.2.1, bind, Except.bind, pure, Except.pure,
      BitVec.add_assoc, hb]

theorem ruleFRIT_of_format {code : Byte} {f : Width → Reg → Word → Word → Instr} (hc : code.toNat < 128)
    (hf : opcodeFormat (opcodeOf code) = some (.frit f)) : RuleFRIT code f := by
  refine ⟨firstRegisterChecked_of_format hc hf fun w s t h => ?_, ?_, ?_⟩
  · simp [State.fetchOperands, h, bind, Except.bind]
  · rintro s r lo hi tlo thi ⟨hr, hb⟩
    simp only [List.length, State.bytesAt, List.cons.injEq, BitVec.add_assoc, BitVec.ofNat_eq_ofNat,
      BitVec.reduceAdd] at hb
    rw [step_of_running hr, fetchInstr_of_format hc hf hb.1]
    simp [State.fetchOperands, fetchReg_of_byte (s := s.fetched 1) hb.2.1, fetchImm_eq, fetchWord_eq, Width.bytes,
      bind, Except.bind, pure, Except.pure, BitVec.add_assoc, hb]
  · rintro s r x tlo thi ⟨hr, hb⟩
    simp only [List.length, State.bytesAt, List.cons.injEq, BitVec.add_assoc, BitVec.ofNat_eq_ofNat,
      BitVec.reduceAdd] at hb
    rw [step_of_running hr, fetchInstr_of_format hc hf hb.1]
    simp [State.fetchOperands, fetchReg_of_byte (s := s.fetched 1) hb.2.1, fetchImm_eq, fetchWord_eq, Width.bytes,
      bind, Except.bind, pure, Except.pure, BitVec.add_assoc, hb]

theorem ruleFRAT_of_format {code : Byte} {f : Width → Reg → Word → Word → Instr} (hc : code.toNat < 128)
    (hf : opcodeFormat (opcodeOf code) = some (.frat f)) : RuleFRAT code f := by
  refine ⟨firstRegisterChecked_of_format hc hf fun w s t h => ?_, ?_⟩
  · simp [State.fetchOperands, h, bind, Except.bind]
  · rintro s w r lo hi tlo thi ⟨hr, hb⟩
    simp only [List.length, State.bytesAt, List.cons.injEq, BitVec.add_assoc, BitVec.ofNat_eq_ofNat,
      BitVec.reduceAdd] at hb
    rw [step_of_running hr, fetchInstr_of_format hc hf hb.1]
    simp [State.fetchOperands, fetchReg_of_byte (s := s.fetched 1) hb.2.1, fetchWord_eq, bind, Except.bind, pure,
      Except.pure, BitVec.add_assoc, hb]

end Sys2Proof.Machine
end

