-- ==== Sys2Proof/Laws/Frame.lean ====
section
/-! SUPPORT. Frames of the shared operations, and the ALU's results operation by operation. -/

namespace Sys2Proof.Machine

theorem bytes_eq_pick (w : Width) : w.bytes = w.pick 2 1 := by cases w <;> rfl

theorem modulus_eq_pick (w : Width) : w.modulus = w.pick 65536 256 := by cases w <;> rfl

theorem part_eq_mod_pick (w : Width) (v : Word) : w.part v = v.toNat % w.pick 65536 256 := by cases w <;> rfl

/-- A memory operand lies below the modulus of its width. -/
theorem memRead_lt (s : State) (a : Word) (w : Width) : (s.memRead a w).toNat < w.modulus := by
  cases w with
  | word => exact (s.memRead a .word).isLt
  | byte =>
    rw [memRead_byte, zext16_toNat]
    exact (s.readByte a).isLt

/-- A memory operand takes part in its form's arithmetic as it is. -/
theorem part_memRead (s : State) (a : Word) (w : Width) : w.part (s.memRead a w) = (s.memRead a w).toNat :=
  Nat.mod_eq_of_lt (memRead_lt s a w)

theorem aluInto_add (s : State) (w : Width) (r : Reg) (b : Word) :
    s.aluInto .add w r b = s.writeReg r (sum w (s.readReg r) b) := rfl

theorem aluInto_sub (s : State) (w : Width) (r : Reg) (b : Word) :
    s.aluInto .sub w r b = s.writeReg r (difference w (s.readReg r) b) := rfl

theorem aluInto_mul (s : State) (w : Width) (r : Reg) (b : Word) :
    s.aluInto .mul w r b =
      s.writeReg r (BitVec.ofNat 16 (w.part (s.readReg r) * w.part b % w.modulus)) := rfl

theorem aluInto_div_zero (s : State) {w : Width} (r : Reg) {b : Word} (h : w.part b = 0) :
    s.aluInto .div w r b = s.raise .divideByZero := by
  simp [State.aluInto, alu, h]

theorem aluInto_div (s : State) {w : Width} (r : Reg) {b : Word} (h : w.part b ≠ 0) :
    s.aluInto .div w r b = s.writeReg r (BitVec.ofNat 16 (w.part (s.readReg r) / w.part b)) := by
  simp [State.aluInto, alu, h]

theorem aluMemInto_eq (s : State) (k : AluOp) (w : Width) (r : Reg) (a : Word) :
    s.aluMemInto k w r a = (s.charge w.bytes).aluInto k w r (s.memRead a w) := rfl

/-- A quotient of the form fits a word. -/
theorem quotient_lt (w : Width) (a b : Word) : w.part a / w.part b < 65536 := by
  have := part_lt w a
  have := modulus_le w
  have := Nat.div_le_self (w.part a) (w.part b)
  omega

/-- A product of the form, reduced, fits a word. -/
theorem product_lt (w : Width) (a b : Word) : w.part a * w.part b % w.modulus < 65536 := by
  have := modulus_le w
  have := Nat.mod_lt (w.part a * w.part b) (show 0 < w.modulus by cases w <;> decide)
  omega

/-- A register write changes that register and nothing else. -/
theorem frame_writeReg (s : State) (r : Reg) (v : Word) : Frame s (s.writeReg r v) [r] [] s.flags 0 where
  regs q hq := readReg_writeReg_ne s v (by simpa using hq)
  mem a _ := readByte_writeReg s r v a
  flags := writeReg_flags s r v
  cyc := by simp
  halted := writeReg_halted s r v
  fault := writeReg_fault s r v
  layout := writeReg_layout s r v

/-- The same after a charge. -/
theorem frame_charge_writeReg (s : State) (n : Nat) (r : Reg) (v : Word) :
    Frame s ((s.charge n).writeReg r v) [r] [] s.flags n where
  regs q hq := by rw [readReg_writeReg_ne _ v (by simpa using hq), charge_readReg]
  mem a _ := by rw [readByte_writeReg, charge_readByte]
  flags := by simp
  cyc := by simp
  halted := by simp
  fault := by simp
  layout := by simp

/-- A store changes the cells of its operand and nothing else. -/
theorem frame_charge_storeData (s : State) (n : Nat) (a : Word) (w : Width) (v : Word) :
    Frame s ((s.charge n).storeData a w v) [] (cells w a) s.flags (n + w.bytes) where
  regs q _ := by simp
  mem b hb := by
    show ((s.charge n).memWrite a w v).readByte b = s.readByte b
    rw [readByte_memWrite_outside _ v hb, charge_readByte]
  flags := by simp [State.storeData]
  cyc := by simp only [storeData_cyc, charge_cyc]; push_cast; omega
  halted := by simp [State.storeData]
  fault := by simp [State.storeData]
  layout := by simp [State.storeData]

/-- A push changes `sp` and the cells it writes. -/
theorem frame_push (s : State) (w : Width) (v : Word) :
    Frame s (s.push w v) [.sp] (cells w (s.sp - BitVec.ofNat 16 w.bytes)) s.flags w.bytes where
  regs q hq := by
    rw [push_eq]
    cases q <;> first | rfl | simp at hq
  mem b hb := by
    rw [push_eq]
    exact readByte_memWrite_outside s v hb
  flags := by rw [push_eq]
  cyc := by rw [push_eq]
  halted := by rw [push_eq]
  fault := by rw [push_eq]
  layout := by rw [push_eq]

end Sys2Proof.Machine
end

