-- ==== Sys2Proof/Laws/PerInstr.lean ====
section
/-! SUPPORT. Statements for all instructions, one lemma per instruction. -/

namespace Sys2Proof.Laws

/-- R47, R48: the encoding has the length of the instruction's row in R154, which is 1 to 6 bytes. -/
def EncodedLength.Statement (i : Instr) : Prop :=
  (∀ taken, i.length = (i.tableRow taken).1) ∧ 1 ≤ i.length ∧ i.length ≤ maxLength

theorem EncodedLength.nop : EncodedLength.Statement .nop :=
  ⟨fun _ => rfl, Nat.le_add_left _ _, Nat.le_of_ble_eq_true rfl⟩

theorem EncodedLength.add (reg1 reg2 : Reg) : EncodedLength.Statement (.add reg1 reg2) :=
  ⟨fun _ => rfl, Nat.le_add_left _ _, Nat.le_of_ble_eq_true rfl⟩

theorem EncodedLength.addc (w : Width) (r : Reg) (imm : Word) : EncodedLength.Statement (.addc w r imm) := by
  cases w <;> exact ⟨fun _ => rfl, Nat.le_add_left _ _, Nat.le_of_ble_eq_true rfl⟩

theorem EncodedLength.adda (w : Width) (r : Reg) (addr : Word) : EncodedLength.Statement (.adda w r addr) := by
  cases w <;> exact ⟨fun _ => rfl, Nat.le_add_left _ _, Nat.le_of_ble_eq_true rfl⟩

theorem EncodedLength.sub (reg1 reg2 : Reg) : EncodedLength.Statement (.sub reg1 reg2) :=
  ⟨fun _ => rfl, Nat.le_add_left _ _, Nat.le_of_ble_eq_true rfl⟩

theorem EncodedLength.subc (w : Width) (r : Reg) (imm : Word) : EncodedLength.Statement (.subc w r imm) := by
  cases w <;> exact ⟨fun _ => rfl, Nat.le_add_left _ _, Nat.le_of_ble_eq_true rfl⟩

theorem EncodedLength.suba (w : Width) (r : Reg) (addr : Word) : EncodedLength.Statement (.suba w r addr) := by
  cases w <;> exact ⟨fun _ => rfl, Nat.le_add_left _ _, Nat.le_of_ble_eq_true rfl⟩

theorem EncodedLength.mul (reg1 reg2 : Reg) : EncodedLength.Statement (.mul reg1 reg2) :=
  ⟨fun _ => rfl, Nat.le_add_left _ _, Nat.le_of_ble_eq_true rfl⟩

theorem EncodedLength.mulc (w : Width) (r : Reg) (imm : Word) : EncodedLength.Statement (.mulc w r imm) := by
  cases w <;> exact ⟨fun _ => rfl, Nat.le_add_left _ _, Nat.le_of_ble_eq_true rfl⟩

theorem EncodedLength.mula (w : Width) (r : Reg) (addr : Word) : EncodedLength.Statement (.mula w r addr) := by
  cases w <;> exact ⟨fun _ => rfl, Nat.le_add_left _ _, Nat.le_of_ble_eq_true rfl⟩

theorem EncodedLength.div (reg1 reg2 : Reg) : EncodedLength.Statement (.div reg1 reg2) :=
  ⟨fun _ => rfl, Nat.le_add_left _ _, Nat.le_of_ble_eq_true rfl⟩

theorem EncodedLength.divc (w : Width) (r : Reg) (imm : Word) : EncodedLength.Statement (.divc w r imm) := by
  cases w <;> exact ⟨fun _ => rfl, Nat.le_add_left _ _, Nat.le_of_ble_eq_true rfl⟩

theorem EncodedLength.diva (w : Width) (r : Reg) (addr : Word) : EncodedLength.Statement (.diva w r addr) := by
  cases w <;> exact ⟨fun _ => rfl, Nat.le_add_left _ _, Nat.le_of_ble_eq_true rfl⟩

theorem EncodedLength.cmp (reg1 reg2 : Reg) : EncodedLength.Statement (.cmp reg1 reg2) :=
  ⟨fun _ => rfl, Nat.le_add_left _ _, Nat.le_of_ble_eq_true rfl⟩

theorem EncodedLength.cmpa (w : Width) (r : Reg) (addr : Word) : EncodedLength.Statement (.cmpa w r addr) := by
  cases w <;> exact ⟨fun _ => rfl, Nat.le_add_left _ _, Nat.le_of_ble_eq_true rfl⟩

theorem EncodedLength.inc (r : Reg) : EncodedLength.Statement (.inc r) :=
  ⟨fun _ => rfl, Nat.le_add_left _ _, Nat.le_of_ble_eq_true rfl⟩

theorem EncodedLength.incm (w : Width) (addr : Word) : EncodedLength.Statement (.incm w addr) := by
  cases w <;> exact ⟨fun _ => rfl, Nat.le_add_left _ _, Nat.le_of_ble_eq_true rfl⟩

theorem EncodedLength.dec (r : Reg) : EncodedLength.Statement (.dec r) :=
  ⟨fun _ => rfl, Nat.le_add_left _ _, Nat.le_of_ble_eq_true rfl⟩

theorem EncodedLength.decm (w : Width) (addr : Word) : EncodedLength.Statement (.decm w addr) := by
  cases w <;> exact ⟨fun _ => rfl, Nat.le_add_left _ _, Nat.le_of_ble_eq_true rfl⟩

theorem EncodedLength.uxt (r : Reg) : EncodedLength.Statement (.uxt r) :=
  ⟨fun _ => rfl, Nat.le_add_left _ _, Nat.le_of_ble_eq_true rfl⟩

theorem EncodedLength.ldr (reg1 reg2 : Reg) : EncodedLength.Statement (.ldr reg1 reg2) :=
  ⟨fun _ => rfl, Nat.le_add_left _ _, Nat.le_of_ble_eq_true rfl⟩

theorem EncodedLength.ldc (w : Width) (r : Reg) (imm : Word) : EncodedLength.Statement (.ldc w r imm) := by
  cases w <;> exact ⟨fun _ => rfl, Nat.le_add_left _ _, Nat.le_of_ble_eq_true rfl⟩

theorem EncodedLength.ldm (w : Width) (r : Reg) (addr : Word) : EncodedLength.Statement (.ldm w r addr) := by
  cases w <;> exact ⟨fun _ => rfl, Nat.le_add_left _ _, Nat.le_of_ble_eq_true rfl⟩

theorem EncodedLength.jsr (target : Word) : EncodedLength.Statement (.jsr target) :=
  ⟨fun _ => rfl, Nat.le_add_left _ _, Nat.le_of_ble_eq_true rfl⟩

theorem EncodedLength.rtn : EncodedLength.Statement .rtn :=
  ⟨fun _ => rfl, Nat.le_add_left _ _, Nat.le_of_ble_eq_true rfl⟩

theorem EncodedLength.jmp (target : Word) : EncodedLength.Statement (.jmp target) :=
  ⟨fun _ => rfl, Nat.le_add_left _ _, Nat.le_of_ble_eq_true rfl⟩

theorem EncodedLength.jrz (r : Reg) (target : Word) : EncodedLength.Statement (.jrz r target) :=
  ⟨fun _ => rfl, Nat.le_add_left _ _, Nat.le_of_ble_eq_true rfl⟩

theorem EncodedLength.jre (w : Width) (r : Reg) (imm target : Word) :
    EncodedLength.Statement (.jre w r imm target) := by
  cases w <;> exact ⟨fun _ => rfl, Nat.le_add_left _ _, Nat.le_of_ble_eq_true rfl⟩

theorem EncodedLength.jrn (w : Width) (r : Reg) (imm target : Word) :
    EncodedLength.Statement (.jrn w r imm target) := by
  cases w <;> exact ⟨fun _ => rfl, Nat.le_add_left _ _, Nat.le_of_ble_eq_true rfl⟩

theorem EncodedLength.jrg (w : Width) (r : Reg) (imm target : Word) :
    EncodedLength.Statement (.jrg w r imm target) := by
  cases w <;> exact ⟨fun _ => rfl, Nat.le_add_left _ _, Nat.le_of_ble_eq_true rfl⟩

theorem EncodedLength.jrge (w : Width) (r : Reg) (imm target : Word) :
    EncodedLength.Statement (.jrge w r imm target) := by
  cases w <;> exact ⟨fun _ => rfl, Nat.le_add_left _ _, Nat.le_of_ble_eq_true rfl⟩

theorem EncodedLength.jrl (w : Width) (r : Reg) (imm target : Word) :
    EncodedLength.Statement (.jrl w r imm target) := by
  cases w <;> exact ⟨fun _ => rfl, Nat.le_add_left _ _, Nat.le_of_ble_eq_true rfl⟩

theorem EncodedLength.jrle (w : Width) (r : Reg) (imm target : Word) :
    EncodedLength.Statement (.jrle w r imm target) := by
  cases w <;> exact ⟨fun _ => rfl, Nat.le_add_left _ _, Nat.le_of_ble_eq_true rfl⟩

theorem EncodedLength.jrem (w : Width) (r : Reg) (addr target : Word) :
    EncodedLength.Statement (.jrem w r addr target) := by
  cases w <;> exact ⟨fun _ => rfl, Nat.le_add_left _ _, Nat.le_of_ble_eq_true rfl⟩

theorem EncodedLength.jrnm (w : Width) (r : Reg) (addr target : Word) :
    EncodedLength.Statement (.jrnm w r addr target) := by
  cases w <;> exact ⟨fun _ => rfl, Nat.le_add_left _ _, Nat.le_of_ble_eq_true rfl⟩

theorem EncodedLength.jrgm (w : Width) (r : Reg) (addr target : Word) :
    EncodedLength.Statement (.jrgm w r addr target) := by
  cases w <;> exact ⟨fun _ => rfl, Nat.le_add_left _ _, Nat.le_of_ble_eq_true rfl⟩

theorem EncodedLength.jrgem (w : Width) (r : Reg) (addr target : Word) :
    EncodedLength.Statement (.jrgem w r addr target) := by
  cases w <;> exact ⟨fun _ => rfl, Nat.le_add_left _ _, Nat.le_of_ble_eq_true rfl⟩

theorem EncodedLength.jrlm (w : Width) (r : Reg) (addr target : Word) :
    EncodedLength.Statement (.jrlm w r addr target) := by
  cases w <;> exact ⟨fun _ => rfl, Nat.le_add_left _ _, Nat.le_of_ble_eq_true rfl⟩

theorem EncodedLength.jrlem (w : Width) (r : Reg) (addr target : Word) :
    EncodedLength.Statement (.jrlem w r addr target) := by
  cases w <;> exact ⟨fun _ => rfl, Nat.le_add_left _ _, Nat.le_of_ble_eq_true rfl⟩

theorem EncodedLength.push (r : Reg) : EncodedLength.Statement (.push r) :=
  ⟨fun _ => rfl, Nat.le_add_left _ _, Nat.le_of_ble_eq_true rfl⟩

theorem EncodedLength.pop (w : Width) (r : Reg) : EncodedLength.Statement (.pop w r) := by
  cases w <;> exact ⟨fun _ => rfl, Nat.le_add_left _ _, Nat.le_of_ble_eq_true rfl⟩

theorem EncodedLength.popm (w : Width) (addr : Word) : EncodedLength.Statement (.popm w addr) := by
  cases w <;> exact ⟨fun _ => rfl, Nat.le_add_left _ _, Nat.le_of_ble_eq_true rfl⟩

theorem EncodedLength.pushs : EncodedLength.Statement .pushs :=
  ⟨fun _ => rfl, Nat.le_add_left _ _, Nat.le_of_ble_eq_true rfl⟩

theorem EncodedLength.pops : EncodedLength.Statement .pops :=
  ⟨fun _ => rfl, Nat.le_add_left _ _, Nat.le_of_ble_eq_true rfl⟩

theorem EncodedLength.reset : EncodedLength.Statement .reset :=
  ⟨fun _ => rfl, Nat.le_add_left _ _, Nat.le_of_ble_eq_true rfl⟩

theorem EncodedLength.halt : EncodedLength.Statement .halt :=
  ⟨fun _ => rfl, Nat.le_add_left _ _, Nat.le_of_ble_eq_true rfl⟩

end Sys2Proof.Laws
end

