-- ==== Sys2Proof/Tests/Slice0.lean ====
section
/-! SUPPORT. Tests: the form check's refusals, one decoding for every instruction, at most two single steps for each,
and for every statement with hypotheses a state and operands that meet them (`witness_<statement>`). The bytes are
written out from spec/30_encoding.md R44 and R47, the steps and their results are rows of spec/95_test_vectors.md, named
by their ids. -/

namespace Sys2Proof.Tests

open Sys2Proof.Machine

/-! ## Helpers -/

/-- The given state with bytes stored at `a`, `pc` there and a budget of 1. -/
def place (a : Word) (bs : List Byte) (s : State := State.reset) : State :=
  { s.storeBytes a bs with pc := a, cyc := 1 }

/-- The given state with data bytes stored at `a`. -/
def data (a : Word) (bs : List Byte) (s : State := State.reset) : State := s.storeBytes a bs

/-- All seven flags 1. -/
def allSet : Flags := ⟨true, true, true, true, true, true, true⟩

/-- The state after one step, where it answers one. -/
def after (s : State) : Option State :=
  match step s with
  | .next t => some t
  | .fault _ => none
  | .refused _ => none

/-! ## WellFormed: a byte immediate of 256 or more has no encoding (R49) -/

theorem test_wf_refuses_addc : (Instr.addc .byte .r0 0x0100).wf = false := by decide

theorem test_wf_refuses_subc : (Instr.subc .byte .r0 0x0100).wf = false := by decide

theorem test_wf_refuses_mulc : (Instr.mulc .byte .r0 0x0100).wf = false := by decide

theorem test_wf_refuses_divc : (Instr.divc .byte .r0 0x0100).wf = false := by decide

theorem test_wf_refuses_ldc : (Instr.ldc .byte .r0 0x0100).wf = false := by decide

theorem test_wf_refuses_jre : (Instr.jre .byte .r0 0x0100 0x0000).wf = false := by decide

theorem test_wf_refuses_jrn : (Instr.jrn .byte .r0 0x0100 0x0000).wf = false := by decide

theorem test_wf_refuses_jrg : (Instr.jrg .byte .r0 0x0100 0x0000).wf = false := by decide

theorem test_wf_refuses_jrge : (Instr.jrge .byte .r0 0x0100 0x0000).wf = false := by decide

theorem test_wf_refuses_jrl : (Instr.jrl .byte .r0 0x0100 0x0000).wf = false := by decide

theorem test_wf_refuses_jrle : (Instr.jrle .byte .r0 0x0100 0x0000).wf = false := by decide

theorem test_wf_accepts_byte_ff : (Instr.ldc .byte .r0 0x00FF).wf = true := by decide

theorem test_wf_accepts_word : (Instr.ldc .word .r0 0x0100).wf = true := by decide

/-! ## Decode: every constructor from its bytes -/

theorem test_decode_nop :
    decode [0x00, 0x5A] = .ok (.nop, [0x5A]) := by decide

theorem test_decode_add :
    decode [0x01, 0x02, 0x05, 0x5A] = .ok (.add .r2 .r5, [0x5A]) := by decide

theorem test_decode_addc :
    decode [0x02, 0x03, 0x37, 0x15, 0x5A] = .ok (.addc .word .r3 0x1537, [0x5A]) := by decide

theorem test_decode_adda :
    decode [0x83, 0x04, 0x38, 0x16, 0x5A] = .ok (.adda .byte .r4 0x1638, [0x5A]) := by decide

theorem test_decode_sub :
    decode [0x04, 0x05, 0x00, 0x5A] = .ok (.sub .r5 .r0, [0x5A]) := by decide

theorem test_decode_subc :
    decode [0x85, 0x06, 0xBA, 0x5A] = .ok (.subc .byte .pc 0x00BA, [0x5A]) := by decide

theorem test_decode_suba :
    decode [0x06, 0x07, 0x3B, 0x19, 0x5A] = .ok (.suba .word .sp 0x193B, [0x5A]) := by decide

theorem test_decode_mul :
    decode [0x07, 0x00, 0x03, 0x5A] = .ok (.mul .r0 .r3, [0x5A]) := by decide

theorem test_decode_mulc :
    decode [0x08, 0x01, 0x3D, 0x1B, 0x5A] = .ok (.mulc .word .r1 0x1B3D, [0x5A]) := by decide

theorem test_decode_mula :
    decode [0x89, 0x02, 0x3E, 0x1C, 0x5A] = .ok (.mula .byte .r2 0x1C3E, [0x5A]) := by decide

theorem test_decode_div :
    decode [0x0A, 0x03, 0x06, 0x5A] = .ok (.div .r3 .pc, [0x5A]) := by decide

theorem test_decode_divc :
    decode [0x8B, 0x04, 0xC0, 0x5A] = .ok (.divc .byte .r4 0x00C0, [0x5A]) := by decide

theorem test_decode_diva :
    decode [0x0C, 0x05, 0x41, 0x1F, 0x5A] = .ok (.diva .word .r5 0x1F41, [0x5A]) := by decide

theorem test_decode_cmp :
    decode [0x0E, 0x06, 0x01, 0x5A] = .ok (.cmp .pc .r1, [0x5A]) := by decide

theorem test_decode_cmpa :
    decode [0x0F, 0x07, 0x43, 0x21, 0x5A] = .ok (.cmpa .word .sp 0x2143, [0x5A]) := by decide

theorem test_decode_inc :
    decode [0x10, 0x00, 0x5A] = .ok (.inc .r0, [0x5A]) := by decide

theorem test_decode_incm :
    decode [0x11, 0x45, 0x23, 0x5A] = .ok (.incm .word 0x2345, [0x5A]) := by decide

theorem test_decode_dec :
    decode [0x12, 0x02, 0x5A] = .ok (.dec .r2, [0x5A]) := by decide

theorem test_decode_decm :
    decode [0x13, 0x47, 0x25, 0x5A] = .ok (.decm .word 0x2547, [0x5A]) := by decide

theorem test_decode_uxt :
    decode [0x20, 0x04, 0x5A] = .ok (.uxt .r4, [0x5A]) := by decide

theorem test_decode_ldr :
    decode [0x30, 0x05, 0x00, 0x5A] = .ok (.ldr .r5 .r0, [0x5A]) := by decide

theorem test_decode_ldc :
    decode [0xB1, 0x06, 0xCA, 0x5A] = .ok (.ldc .byte .pc 0x00CA, [0x5A]) := by decide

theorem test_decode_ldm :
    decode [0x32, 0x07, 0x4B, 0x29, 0x5A] = .ok (.ldm .word .sp 0x294B, [0x5A]) := by decide

theorem test_decode_jsr :
    decode [0x40, 0x4C, 0x2A, 0x5A] = .ok (.jsr 0x2A4C, [0x5A]) := by decide

theorem test_decode_rtn :
    decode [0x41, 0x5A] = .ok (.rtn, [0x5A]) := by decide

theorem test_decode_jmp :
    decode [0x42, 0x4E, 0x2C, 0x5A] = .ok (.jmp 0x2C4E, [0x5A]) := by decide

theorem test_decode_jrz :
    decode [0x43, 0x03, 0x4F, 0x2D, 0x5A] = .ok (.jrz .r3 0x2D4F, [0x5A]) := by decide

theorem test_decode_jre :
    decode [0xC4, 0x04, 0xD0, 0x61, 0x63, 0x5A] = .ok (.jre .byte .r4 0x00D0 0x6361, [0x5A]) := by decide

theorem test_decode_jrn :
    decode [0x45, 0x05, 0x51, 0x2F, 0x62, 0x64, 0x5A] = .ok (.jrn .word .r5 0x2F51 0x6462, [0x5A]) := by decide

theorem test_decode_jrg :
    decode [0xC6, 0x06, 0xD2, 0x63, 0x65, 0x5A] = .ok (.jrg .byte .pc 0x00D2 0x6563, [0x5A]) := by decide

theorem test_decode_jrge :
    decode [0x47, 0x07, 0x53, 0x31, 0x64, 0x66, 0x5A] = .ok (.jrge .word .sp 0x3153 0x6664, [0x5A]) := by decide

theorem test_decode_jrl :
    decode [0xC8, 0x00, 0xD4, 0x65, 0x67, 0x5A] = .ok (.jrl .byte .r0 0x00D4 0x6765, [0x5A]) := by decide

theorem test_decode_jrle :
    decode [0x49, 0x01, 0x55, 0x33, 0x66, 0x68, 0x5A] = .ok (.jrle .word .r1 0x3355 0x6866, [0x5A]) := by decide

theorem test_decode_jrem :
    decode [0xCA, 0x02, 0x56, 0x34, 0x67, 0x69, 0x5A] = .ok (.jrem .byte .r2 0x3456 0x6967, [0x5A]) := by decide

theorem test_decode_jrnm :
    decode [0x4B, 0x03, 0x57, 0x35, 0x68, 0x6A, 0x5A] = .ok (.jrnm .word .r3 0x3557 0x6A68, [0x5A]) := by decide

theorem test_decode_jrgm :
    decode [0xCC, 0x04, 0x58, 0x36, 0x69, 0x6B, 0x5A] = .ok (.jrgm .byte .r4 0x3658 0x6B69, [0x5A]) := by decide

theorem test_decode_jrgem :
    decode [0x4D, 0x05, 0x59, 0x37, 0x6A, 0x6C, 0x5A] = .ok (.jrgem .word .r5 0x3759 0x6C6A, [0x5A]) := by decide

theorem test_decode_jrlm :
    decode [0xCE, 0x06, 0x5A, 0x38, 0x6B, 0x6D, 0x5A] = .ok (.jrlm .byte .pc 0x385A 0x6D6B, [0x5A]) := by decide

theorem test_decode_jrlem :
    decode [0x4F, 0x07, 0x5B, 0x39, 0x6C, 0x6E, 0x5A] = .ok (.jrlem .word .sp 0x395B 0x6E6C, [0x5A]) := by decide

theorem test_decode_push :
    decode [0x60, 0x00, 0x5A] = .ok (.push .r0, [0x5A]) := by decide

theorem test_decode_pop :
    decode [0x63, 0x01, 0x5A] = .ok (.pop .word .r1, [0x5A]) := by decide

theorem test_decode_popm :
    decode [0xE4, 0x5E, 0x3C, 0x5A] = .ok (.popm .byte 0x3C5E, [0x5A]) := by decide

theorem test_decode_pushs :
    decode [0x65, 0x5A] = .ok (.pushs, [0x5A]) := by decide

theorem test_decode_pops :
    decode [0x66, 0x5A] = .ok (.pops, [0x5A]) := by decide

theorem test_decode_reset :
    decode [0x7E, 0x5A] = .ok (.reset, [0x5A]) := by decide

theorem test_decode_halt :
    decode [0x7F, 0x5A] = .ok (.halt, [0x5A]) := by decide

/-- R45: W is ignored where there is no width choice. -/
theorem test_decode_ignores_w :
    decode [0xFF] = .ok (.halt, []) ∧ decode [0x90, 0x07] = .ok (.inc .sp, []) := by decide

/-- R51: the first and the last undefined opcode, with W = 0 and 1. -/
theorem test_decode_refuses_opcodes :
    decode [0x0D] = .error (.illegalOpcode 0x0D) ∧ decode [0xFD] = .error (.illegalOpcode 0x7D) := by decide

/-- R50: a register byte is read whole, its bit 7 too. -/
theorem test_decode_refuses_registers :
    decode [0x10, 0x80] = .error (.illegalRegister 1) ∧ decode [0x01, 0x07, 0x08] = .error (.illegalRegister 2) := by
  decide

theorem test_decode_table_word :
    decodeTableWord 8 0x7F = some .halt ∧
      decodeTableWord 48 0x123400100045 = some (.jrn .word .r0 0x0010 0x1234) := by
  decide

/-- The host's placing of an instruction: the very next step fetches and runs it. -/
theorem test_withFetchWord :
    (after (State.reset.withFetchWord 32 0x12340131)).map (fun t => (t.r1, t.pc)) = some (0x1234, 0x0004) := by decide

/-! ## Single steps -/

/-- V2 -/
theorem test_nop_ignores_bit_7 :
    (after (place 0x0000 [0x80])).map (fun t => (t.pc, t.cyc)) = some (0x0001, 0) := by decide

/-- V3 -/
theorem test_nop_pc_wraps :
    (after (place 0xFFFF [0x00])).map (fun t => (t.pc, t.cyc)) = some (0x0000, 0) := by decide

/-- V5 -/
theorem test_add_wraps :
    (after (place 0x0000 [0x01, 0x00, 0x01]
      { State.reset with r0 := 0xFFFF, r1 := 0x0001, flags := ⟨true, false, false, false, false, false, true⟩ })).map
        (fun t => (t.r0, t.flags, t.cyc)) = some (0x0000, { Flags.clear with n := true, c := true }, -2) := by decide

/-- V8 -/
theorem test_add_pc_is_a_jump :
    (after (place 0x0100 [0x01, 0x06, 0x00] { State.reset with r0 := 0x0010 })).map (fun t => (t.pc, t.cyc)) =
      some (0x0113, -2) := by decide

/-- V9 -/
theorem test_addc_wraps :
    (after (place 0x0000 [0x02, 0x00, 0x34, 0x12]
      { State.reset with r0 := 0xF000 })).map (fun t => (t.r0, t.pc, t.cyc)) = some (0x0234, 0x0004, -3) := by decide

/-- V10 -/
theorem test_addc_byte_wraps :
    (after (place 0x0000 [0x82, 0x00, 0x01] { State.reset with r0 := 0x12FF })).map (fun t => (t.r0, t.pc, t.cyc)) =
      some (0x0000, 0x0003, -2) := by decide

/-- V13 -/
theorem test_adda_byte_reads_one_byte :
    (after (place 0x0000 [0x83, 0x00, 0x00, 0x03]
      (data 0x0300 [0xF0, 0x55] { State.reset with r0 := 0x0110 }))).map
        (fun t => (t.r0, t.pc, t.cyc)) = some (0x0000, 0x0004, -4) := by decide

/-- V14 -/
theorem test_adda_word_at_ffff :
    (after (place 0x0100 [0x03, 0x00, 0xFF, 0xFF]
      (data 0x0000 [0x12] (data 0xFFFF [0x34] { State.reset with r0 := 0x0001 })))).map
        (fun t => (t.r0, t.pc, t.cyc)) = some (0x1235, 0x0104, -5) := by decide

/-- V15 -/
theorem test_sub_wraps :
    (after (place 0x0000 [0x04, 0x00, 0x01]
      { State.reset with r0 := 0x0000, r1 := 0x0001 })).map
        (fun t => (t.r0, t.pc, t.cyc)) = some (0xFFFF, 0x0003, -2) := by decide

/-- V16 -/
theorem test_sub_same_register :
    (after (place 0x0000 [0x04, 0x03, 0x03] { State.reset with r3 := 0xABCD })).map (fun t => (t.r3, t.pc, t.cyc)) =
      some (0x0000, 0x0003, -2) := by decide

/-- V17 -/
theorem test_subc :
    (after (place 0x0000 [0x05, 0x00, 0x01, 0x00]
      { State.reset with r0 := 0x1000 })).map (fun t => (t.r0, t.pc, t.cyc)) = some (0x0FFF, 0x0004, -3) := by decide

/-- V18 -/
theorem test_subc_byte :
    (after (place 0x0000 [0x85, 0x00, 0x01] { State.reset with r0 := 0x0100 })).map (fun t => (t.r0, t.pc, t.cyc)) =
      some (0x00FF, 0x0003, -2) := by decide

/-- V19 -/
theorem test_suba :
    (after (place 0x0000 [0x06, 0x00, 0x00, 0x03]
      (data 0x0300 [0x01, 0x00] { State.reset with r0 := 0x1000 }))).map
        (fun t => (t.r0, t.pc, t.cyc)) = some (0x0FFF, 0x0004, -5) := by decide

/-- V20 -/
theorem test_suba_byte :
    (after (place 0x0000 [0x86, 0x00, 0x00, 0x03]
      (data 0x0300 [0x06, 0xFF] { State.reset with r0 := 0x0005 }))).map
        (fun t => (t.r0, t.pc, t.cyc)) = some (0x00FF, 0x0004, -4) := by decide

/-- V21 -/
theorem test_mul_truncates :
    (after (place 0x0000 [0x07, 0x00, 0x01]
      { State.reset with r0 := 0x0100, r1 := 0x0100 })).map
        (fun t => (t.r0, t.pc, t.cyc)) = some (0x0000, 0x0003, -2) := by decide

/-- V22 -/
theorem test_mul_keeps_low_half :
    (after (place 0x0000 [0x07, 0x00, 0x01]
      { State.reset with r0 := 0xFFFF, r1 := 0xFFFF })).map
        (fun t => (t.r0, t.pc, t.cyc)) = some (0x0001, 0x0003, -2) := by decide

/-- V24 -/
theorem test_mulc :
    (after (place 0x0000 [0x08, 0x00, 0x10, 0x00]
      { State.reset with r0 := 0x1234 })).map (fun t => (t.r0, t.pc, t.cyc)) = some (0x2340, 0x0004, -3) := by decide

/-- V26 -/
theorem test_mulc_byte :
    (after (place 0x0000 [0x88, 0x00, 0x03] { State.reset with r0 := 0xFF55 })).map (fun t => (t.r0, t.pc, t.cyc)) =
      some (0x00FF, 0x0003, -2) := by decide

/-- V27 -/
theorem test_mula :
    (after (place 0x0000 [0x09, 0x01, 0x00, 0x03]
      (data 0x0300 [0x55, 0x55] { State.reset with r1 := 0x0003 }))).map
        (fun t => (t.r1, t.pc, t.cyc)) = some (0xFFFF, 0x0004, -5) := by decide

/-- V28 -/
theorem test_mula_byte :
    (after (place 0x0000 [0x89, 0x01, 0x00, 0x03]
      (data 0x0300 [0x55, 0x55] { State.reset with r1 := 0x0003 }))).map
        (fun t => (t.r1, t.pc, t.cyc)) = some (0x00FF, 0x0004, -4) := by decide

/-- V29 -/
theorem test_div_is_unsigned :
    (after (place 0x0000 [0x0A, 0x00, 0x01]
      { State.reset with r0 := 0xFFFF, r1 := 0x0002 })).map
        (fun t => (t.r0, t.pc, t.cyc)) = some (0x7FFF, 0x0003, -2) := by decide

/-- V33 -/
theorem test_div_by_zero :
    (after (place 0x0000 [0x0A, 0x00, 0x01]
      { State.reset with r0 := 0x0001, r1 := 0x0000 })).map
        (fun t => (t.r0, t.fault, t.cyc)) = some (0x0001, some .divideByZero, -2) := by decide

/-- V36 -/
theorem test_divc_byte :
    (after (place 0x0000 [0x8B, 0x00, 0x10] { State.reset with r0 := 0x01FF })).map (fun t => (t.r0, t.pc, t.cyc)) =
      some (0x000F, 0x0003, -2) := by decide

/-- V38 -/
theorem test_divc_byte_by_zero :
    (after (place 0x0000 [0x8B, 0x00, 0x00] { State.reset with r0 := 0x0064 })).map (fun t => (t.pc, t.fault, t.cyc)) =
      some (0x0003, some .divideByZero, -2) := by decide

/-- V40 -/
theorem test_diva_byte :
    (after (place 0x0000 [0x8C, 0x00, 0x00, 0x03]
      (data 0x0300 [0x02, 0x00] { State.reset with r0 := 0x0309 }))).map
        (fun t => (t.r0, t.pc, t.cyc)) = some (0x0004, 0x0004, -4) := by decide

/-- V41 -/
theorem test_diva_by_zero_is_charged :
    (after (place 0x0000 [0x0C, 0x00, 0x00, 0x03]
      { State.reset with r0 := 0x1000 })).map
        (fun t => (t.r0, t.fault, t.cyc)) = some (0x1000, some .divideByZero, -5) := by decide

/-- W2 -/
theorem test_cmp_below :
    (after (place 0x0000 [0x0E, 0x00, 0x01]
      { State.reset with r0 := 0x0000, r1 := 0x0001 })).map
        (fun t => (t.pc, t.flags.n, t.cyc)) = some (0x0003, true, -2) := by decide

/-- W4 -/
theorem test_cmp_clears_z :
    (after (place 0x0000 [0x0E, 0x01, 0x00]
      { State.reset with r0 := 0x0100, r1 := 0x0080, flags := ⟨false, true, false, false, false, true, true⟩ })).map
        (fun t => (t.flags, t.cyc)) = some ({ Flags.clear with n := true, o := true, c := true }, -2) := by decide

/-- W6 -/
theorem test_cmpa_equal :
    (after (place 0x0000 [0x0F, 0x03, 0x02, 0x02]
      (data 0x0202 [0xFF, 0xFF] { State.reset with r3 := 0xFFFF }))).map
        (fun t => (t.pc, t.flags.z, t.cyc)) = some (0x0004, true, -5) := by decide

/-- W8 -/
theorem test_cmpa_byte_sign :
    (after (place 0x0000 [0x8F, 0x00, 0x00, 0x03]
      (data 0x0300 [0x01, 0x00] { State.reset with r0 := 0x0000 }))).map
        (fun t => (t.flags, t.cyc)) = some ({ Flags.clear with n := true }, -4) := by decide

/-- W11 -/
theorem test_inc_wraps :
    (after (place 0x0000 [0x10, 0x01] { State.reset with r1 := 0xFFFF })).map (fun t => (t.r1, t.pc, t.cyc)) =
      some (0x0000, 0x0002, -1) := by decide

/-- W13 -/
theorem test_inc_pc_skips :
    (after (place 0x0200 [0x10, 0x06])).map (fun t => (t.pc, t.cyc)) = some (0x0203, -1) := by decide

/-- W17 -/
theorem test_incm_byte_no_carry :
    (after (place 0x0000 [0x91, 0x00, 0x02]
      (data 0x0200 [0xFF, 0x00]))).map
        (fun t => (t.pc, t.readByte 0x0200, t.cyc)) = some (0x0003, 0x00, -4) := by decide

/-- W20 -/
theorem test_incm_word_at_ffff :
    (after (place 0x0100 [0x11, 0xFF, 0xFF]
      (data 0x0000 [0x00] (data 0xFFFF [0xFF])))).map
        (fun t => (t.readByte 0x0000, t.readByte 0xFFFF, t.cyc)) = some (0x01, 0x00, -6) := by decide

/-- W15 -/
theorem test_dec_wraps :
    (after (place 0x0000 [0x12, 0x00] { State.reset with r0 := 0x0000 })).map (fun t => (t.r0, t.pc, t.cyc)) =
      some (0xFFFF, 0x0002, -1) := by decide

/-- W16 -/
theorem test_dec_sp :
    (after (place 0x0000 [0x12, 0x07])).map (fun t => (t.pc, t.sp, t.cyc)) = some (0x0002, 0xFFFE, -1) := by decide

/-- W21 -/
theorem test_decm_word :
    (after (place 0x0000 [0x13, 0x02, 0x02])).map (fun t => (t.readByte 0x0202, t.readByte 0x0203, t.cyc)) =
      some (0xFF, 0xFF, -6) := by decide

/-- W22 -/
theorem test_decm_byte_no_borrow :
    (after (place 0x0000 [0x93, 0x02, 0x02]
      (data 0x0202 [0x00, 0x07]))).map
        (fun t => (t.pc, t.readByte 0x0202, t.cyc)) = some (0x0003, 0xFF, -4) := by decide

/-- W24 -/
theorem test_uxt :
    (after (place 0x0000 [0x20, 0x00] { State.reset with r0 := 0xABCD })).map (fun t => (t.r0, t.pc, t.cyc)) =
      some (0x00CD, 0x0002, -1) := by decide

/-- W26 -/
theorem test_uxt_sp :
    (after (place 0x0000 [0x20, 0x07])).map (fun t => (t.pc, t.sp, t.cyc)) = some (0x0002, 0x00FF, -1) := by decide

/-- L2 -/
theorem test_ldr_reads_next_address :
    (after (place 0x001A [0x30, 0x02, 0x06])).map (fun t => (t.r2, t.pc, t.cyc)) =
      some (0x001D, 0x001D, -2) := by decide

/-- L10 -/
theorem test_ldr_pc_is_a_jump :
    (after (place 0x0000 [0x30, 0x06, 0x00] { State.reset with r0 := 0x0400 })).map (fun t => (t.pc, t.cyc)) =
      some (0x0400, -2) := by decide

/-- L4 -/
theorem test_ldc_byte_clears_high :
    (after (place 0x0000 [0xB1, 0x02, 0xAB] { State.reset with r2 := 0xFFFF })).map (fun t => (t.r2, t.pc, t.cyc)) =
      some (0x00AB, 0x0003, -2) := by decide

/-- L5 -/
theorem test_ldc_pc_is_a_jump :
    (after (place 0x0000 [0x31, 0x06, 0x00, 0x03])).map (fun t => (t.pc, t.cyc)) = some (0x0300, -3) := by decide

/-- L8 -/
theorem test_ldm_word_at_ffff :
    (after (place 0x0100 [0x32, 0x00, 0xFF, 0xFF]
      (data 0x0000 [0x12] (data 0xFFFF [0x34])))).map
        (fun t => (t.r0, t.pc, t.cyc)) = some (0x1234, 0x0104, -5) := by decide

/-- L9 -/
theorem test_ldm_byte :
    (after (place 0x0000 [0xB2, 0x03, 0x02, 0x02]
      (data 0x0202 [0xCD, 0xAB] { State.reset with r3 := 0xFFFF }))).map
        (fun t => (t.r3, t.pc, t.cyc)) = some (0x00CD, 0x0004, -4) := by decide

/-- J1 -/
theorem test_jsr_pushes_next_address :
    (after (place 0x0000 [0x40, 0x10, 0x00])).map (fun t => (t.pc, t.readByte 0xFFFD, t.cyc)) =
      some (0x0010, 0x03, -4) := by decide

/-- J3 -/
theorem test_jsr_push_wraps :
    (after (place 0x0000 [0x40, 0x00, 0x02]
      { State.reset with sp := 0x0001 })).map
        (fun t => (t.sp, t.memRead 0xFFFF .word, t.cyc)) = some (0xFFFF, 0x0003, -4) := by decide

/-- J4 -/
theorem test_rtn :
    (after (place 0x0014 [0x41]
      (data 0xFFFD [0x03, 0x00] { State.reset with sp := 0xFFFD }))).map
        (fun t => (t.pc, t.sp, t.cyc)) = some (0x0003, 0xFFFF, -2) := by decide

/-- J5 -/
theorem test_rtn_empty_stack :
    (after (place 0x0100 [0x41] (data 0xFFFF [0x78]))).map (fun t => (t.pc, t.sp, t.cyc)) =
      some (0x0078, 0x0001, -2) := by decide

/-- J6 -/
theorem test_jmp :
    (after (place 0x0000 [0x42, 0x08, 0x00])).map (fun t => (t.pc, t.cyc)) = some (0x0008, -2) := by decide

/-- J7 -/
theorem test_jmp_ignores_bit_7 :
    (after (place 0x0000 [0xC2, 0x00, 0x80])).map (fun t => (t.pc, t.cyc)) = some (0x8000, -2) := by decide

/-- J8 -/
theorem test_jrz_taken :
    (after (place 0x000D [0x43, 0x01, 0x14, 0x00])).map (fun t => (t.pc, t.cyc)) = some (0x0014, -3) := by decide

/-- J9 -/
theorem test_jrz_not_taken :
    (after (place 0x000D [0x43, 0x01, 0x14, 0x00] { State.reset with r1 := 0x0004 })).map (fun t => (t.pc, t.cyc)) =
      some (0x0011, -1) := by decide

/-- J14 -/
theorem test_jre_byte_compares_whole_register :
    (after (place 0x0000 [0xC4, 0x00, 0x10, 0x20, 0x00]
      { State.reset with r0 := 0x0110 })).map (fun t => (t.pc, t.cyc)) = some (0x0005, -4) := by decide

/-- J43 -/
theorem test_jre_reads_pc :
    (after (place 0x0200 [0x44, 0x06, 0x06, 0x02, 0x00, 0x03])).map (fun t => (t.pc, t.cyc)) =
      some (0x0300, -5) := by decide

/-- J15 -/
theorem test_jrn_taken :
    (after (place 0x0000 [0x45, 0x00, 0x10, 0x00, 0x00, 0x02]
      { State.reset with r0 := 0x000F })).map (fun t => (t.pc, t.cyc)) = some (0x0200, -5) := by decide

/-- J16 -/
theorem test_jrn_not_taken :
    (after (place 0x0000 [0x45, 0x00, 0x10, 0x00, 0x00, 0x02]
      { State.reset with r0 := 0x0010 })).map (fun t => (t.pc, t.cyc)) = some (0x0006, -5) := by decide

/-- J19 -/
theorem test_jrg_is_unsigned :
    (after (place 0x0000 [0x46, 0x00, 0xFF, 0xFF, 0x30, 0x00]
      { State.reset with r0 := 0x0001 })).map (fun t => (t.pc, t.cyc)) = some (0x0006, -5) := by decide

/-- J27 -/
theorem test_jrg_byte :
    (after (place 0x0000 [0xC6, 0x00, 0xFF, 0x30, 0x00]
      { State.reset with r0 := 0x0100 })).map (fun t => (t.pc, t.cyc)) = some (0x0030, -4) := by decide

/-- J20 -/
theorem test_jrge_equal :
    (after (place 0x0000 [0x47, 0x00, 0x05, 0x00, 0x30, 0x00]
      { State.reset with r0 := 0x0005 })).map (fun t => (t.pc, t.cyc)) = some (0x0030, -5) := by decide

/-- J21 -/
theorem test_jrge_not_taken :
    (after (place 0x0000 [0x47, 0x00, 0x10, 0x00, 0x30, 0x00]
      { State.reset with r0 := 0x0001 })).map (fun t => (t.pc, t.cyc)) = some (0x0006, -5) := by decide

/-- J23 -/
theorem test_jrl_equal :
    (after (place 0x0000 [0x48, 0x00, 0x05, 0x00, 0x30, 0x00]
      { State.reset with r0 := 0x0005 })).map (fun t => (t.pc, t.cyc)) = some (0x0006, -5) := by decide

/-- J24 -/
theorem test_jrl_is_unsigned :
    (after (place 0x0000 [0x48, 0x00, 0x01, 0x00, 0x30, 0x00]
      { State.reset with r0 := 0x8000 })).map (fun t => (t.pc, t.cyc)) = some (0x0006, -5) := by decide

/-- J25 -/
theorem test_jrle_equal :
    (after (place 0x0000 [0x49, 0x01, 0x0A, 0x00, 0x40, 0x00]
      { State.reset with r1 := 0x000A })).map (fun t => (t.pc, t.cyc)) = some (0x0040, -5) := by decide

/-- J26 -/
theorem test_jrle_not_taken :
    (after (place 0x0000 [0x49, 0x01, 0x0A, 0x00, 0x40, 0x00]
      { State.reset with r1 := 0x000B })).map (fun t => (t.pc, t.cyc)) = some (0x0006, -5) := by decide

/-- J29 -/
theorem test_jrem_byte :
    (after (place 0x0000 [0xCA, 0x00, 0x00, 0x03, 0x50, 0x00]
      (data 0x0300 [0x34, 0x12] { State.reset with r0 := 0x1234 }))).map
        (fun t => (t.pc, t.cyc)) = some (0x0006, -6) := by decide

/-- J42 -/
theorem test_jrem_word_at_ffff :
    (after (place 0x0100 [0x4A, 0x00, 0xFF, 0xFF, 0x50, 0x00]
      (data 0x0000 [0x12] (data 0xFFFF [0x34] { State.reset with r0 := 0x1234 })))).map
        (fun t => (t.pc, t.cyc)) = some (0x0050, -7) := by decide

/-- J31 -/
theorem test_jrnm_equal :
    (after (place 0x0000 [0x4B, 0x00, 0x00, 0x03, 0x50, 0x00]
      (data 0x0300 [0x34, 0x12] { State.reset with r0 := 0x1234 }))).map
        (fun t => (t.pc, t.cyc)) = some (0x0006, -7) := by decide

/-- J32 -/
theorem test_jrnm_taken :
    (after (place 0x0000 [0x4B, 0x00, 0x00, 0x03, 0x50, 0x00]
      (data 0x0300 [0x34, 0x12] { State.reset with r0 := 0x1235 }))).map
        (fun t => (t.pc, t.cyc)) = some (0x0050, -7) := by decide

/-- J34 -/
theorem test_jrgm_byte :
    (after (place 0x0000 [0xCC, 0x00, 0x00, 0x03, 0x1A, 0x00]
      (data 0x0300 [0x80, 0xFF] { State.reset with r0 := 0x0100 }))).map
        (fun t => (t.pc, t.cyc)) = some (0x001A, -6) := by decide

/-- J35 -/
theorem test_jrgm_equal :
    (after (place 0x0000 [0x4C, 0x00, 0x00, 0x03, 0x50, 0x00]
      (data 0x0300 [0x80, 0x00] { State.reset with r0 := 0x0080 }))).map
        (fun t => (t.pc, t.cyc)) = some (0x0006, -7) := by decide

/-- J36 -/
theorem test_jrgem_equal :
    (after (place 0x0000 [0x4D, 0x00, 0x00, 0x03, 0x50, 0x00]
      (data 0x0300 [0x80, 0x00] { State.reset with r0 := 0x0080 }))).map
        (fun t => (t.pc, t.cyc)) = some (0x0050, -7) := by decide

/-- J37 -/
theorem test_jrgem_not_taken :
    (after (place 0x0000 [0x4D, 0x00, 0x00, 0x03, 0x50, 0x00]
      (data 0x0300 [0x80, 0x00] { State.reset with r0 := 0x007F }))).map
        (fun t => (t.pc, t.cyc)) = some (0x0006, -7) := by decide

/-- J38 -/
theorem test_jrlm_taken :
    (after (place 0x0000 [0x4E, 0x00, 0x00, 0x03, 0x50, 0x00]
      (data 0x0300 [0x80, 0x00] { State.reset with r0 := 0x007F }))).map
        (fun t => (t.pc, t.cyc)) = some (0x0050, -7) := by decide

/-- J39 -/
theorem test_jrlm_equal :
    (after (place 0x0000 [0x4E, 0x00, 0x00, 0x03, 0x50, 0x00]
      (data 0x0300 [0x80, 0x00] { State.reset with r0 := 0x0080 }))).map
        (fun t => (t.pc, t.cyc)) = some (0x0006, -7) := by decide

/-- J40 -/
theorem test_jrlem_equal :
    (after (place 0x0000 [0x4F, 0x02, 0x00, 0x03, 0x60, 0x00]
      (data 0x0300 [0x05, 0x00] { State.reset with r2 := 0x0005 }))).map
        (fun t => (t.pc, t.cyc)) = some (0x0060, -7) := by decide

/-- J41 -/
theorem test_jrlem_not_taken :
    (after (place 0x0000 [0x4F, 0x02, 0x00, 0x03, 0x60, 0x00]
      (data 0x0300 [0x05, 0x00] { State.reset with r2 := 0x0006 }))).map
        (fun t => (t.pc, t.cyc)) = some (0x0006, -7) := by decide

/-- K6 -/
theorem test_push_sp_pushes_old_sp :
    (after (place 0x0000 [0x60, 0x07])).map (fun t => (t.memRead 0xFFFD .word, t.sp, t.cyc)) =
      some (0xFFFF, 0xFFFD, -3) := by decide

/-- K12 -/
theorem test_push_wraps :
    (after (place 0x0100 [0x60, 0x00]
      { State.reset with r0 := 0x1234, sp := 0x0000 })).map
        (fun t => (t.memRead 0xFFFE .word, t.sp, t.cyc)) = some (0x1234, 0xFFFE, -3) := by decide

/-- K4 -/
theorem test_pop_byte :
    (after (place 0x0000 [0xE3, 0x01]
      (data 0xFFFD [0xEF, 0xBE] { State.reset with r1 := 0xFFFF, sp := 0xFFFD }))).map
        (fun t => (t.r1, t.sp, t.cyc)) = some (0x00EF, 0xFFFE, -2) := by decide

/-- K8 -/
theorem test_pop_sp_value_wins :
    (after (place 0x0000 [0x63, 0x07]
      (data 0x0400 [0x00, 0x80] { State.reset with sp := 0x0400 }))).map
        (fun t => (t.pc, t.sp, t.cyc)) = some (0x0002, 0x8000, -3) := by decide

/-- K15 -/
theorem test_popm_byte :
    (after (place 0x0000 [0xE4, 0x00, 0x03]
      (data 0x0300 [0xAA, 0xAA] (data 0xFFFD [0x80, 0x00] { State.reset with sp := 0xFFFD })))).map
        (fun t => (t.readByte 0x0300, t.readByte 0x0301, t.cyc)) = some (0x80, 0xAA, -4) := by decide

/-- K14 -/
theorem test_popm_word :
    (after (place 0x0000 [0x64, 0x00, 0x01]
      (data 0x0100 [0xAA, 0xAA] (data 0xFFFD [0x0F, 0x00] { State.reset with sp := 0xFFFD })))).map
        (fun t => (t.memRead 0x0100 .word, t.sp, t.cyc)) = some (0x000F, 0xFFFF, -6) := by decide

/-- K10 -/
theorem test_pushs :
    (after (place 0x0000 [0x65]
      { State.reset with flags := ⟨true, false, false, false, false, true, true⟩ })).map
        (fun t => (t.readByte 0xFFFD, t.readByte 0xFFFE, t.cyc)) = some (0x61, 0x00, -2) := by decide

/-- K11 -/
theorem test_pops_sets_all :
    (after (place 0x0000 [0x66]
      (data 0xFFFD [0xFF, 0xAA] { State.reset with sp := 0xFFFD }))).map
        (fun t => (t.sp, t.flags, t.cyc)) = some (0xFFFF, allSet, -2) := by decide

/-- K17 -/
theorem test_pops_clears_all :
    (after (place 0x0000 [0x66]
      (data 0xFFFD [0x00, 0x00] { State.reset with sp := 0xFFFD, flags := allSet }))).map
        (fun t => (t.sp, t.flags, t.cyc)) = some (0xFFFF, Flags.clear, -2) := by decide

/-- Y1, with every flag set -/
theorem test_reset :
    (after (place 0x0100 [0x7E]
      (data 0xFFFE [0x66] (data 0x0300 [0x55]
        { State.reset with r0 := 0x1234, r5 := 0xFFFF, sp := 0x0400, flags := allSet })))).map
        (fun t => (t.r0, t.mem, t.cyc)) = some (0x0000, [], 0) := by decide

/-- Y2 -/
theorem test_reset_ignores_bit_7 :
    (after (place 0x0100 [0xFE] { State.reset with r3 := 0x0001 })).map (fun t => (t.r3, t.pc, t.cyc)) =
      some (0x0000, 0x0000, 0) := by decide

/-- Y3 -/
theorem test_halt :
    (after (place 0x0000 [0x7F])).map (fun t => (t.pc, t.halted, t.cyc)) = some (0x0001, true, 0) := by decide

/-- Y4 -/
theorem test_halt_ignores_bit_7 :
    (after (place 0x0000 [0xFF])).map (fun t => (t.pc, t.halted, t.cyc)) = some (0x0001, true, 0) := by decide

/-- X2 -/
theorem test_undefined_opcode :
    (after (place 0x0000 [0x8D])).map (fun t => (t.pc, t.fault, t.cyc)) =
      some (0x0001, some .illegalInstruction, 0) := by decide

/-- X8 -/
theorem test_bad_second_register :
    (after (place 0x0000 [0x01, 0x00, 0x08] { State.reset with r0 := 0x0001 })).map (fun t => (t.pc, t.fault, t.cyc)) =
      some (0x0003, some .illegalInstruction, -2) := by decide

/-- X12 -/
theorem test_register_byte_bit_7 :
    (after (place 0x0000 [0x43, 0x80, 0x00, 0x00])).map (fun t => (t.pc, t.fault, t.cyc)) =
      some (0x0002, some .illegalInstruction, -1) := by decide

/-! ## The hypotheses of the statements can be met

A state at address 0xFFFE, so that the bytes of most instructions wrap; each register byte at its last legal or first
illegal value. -/

/-- A running state with bytes at `pc`. -/
abbrev starting (bs : List Byte) : State := place 0xFFFE bs

/-- The premise on the bytes and the core is met. -/
abbrev Met (bs : List Byte) : Prop := (starting bs).Starts bs

/-- `Met` for both values of W. -/
abbrev MetW (code : Byte) (bs : List Byte) : Prop := Met (opByte .word code :: bs) ∧ Met (opByte .byte code :: bs)

/-- The premises of `FirstRegisterChecked`. -/
abbrev MetBad (code : Byte) : Prop := MetW code [0x08] ∧ 7 < (0x08 : Byte).toNat

/-- The premises of `RuleFR`. -/
abbrev MetFR (code : Byte) : Prop := MetBad code ∧ MetW code [Reg.sp.byte]

/-- The premises of `RuleFRR`. -/
abbrev MetFRR (code : Byte) : Prop :=
  MetBad code ∧ MetW code [Reg.sp.byte, 0x08] ∧ MetW code [Reg.sp.byte, Reg.r0.byte]

/-- The premises of `RuleFRI`. -/
abbrev MetFRI (code : Byte) : Prop :=
  MetBad code ∧ Met [opByte .word code, Reg.sp.byte, 0xFF, 0xFF] ∧ Met [opByte .byte code, Reg.sp.byte, 0xFF]

/-- The premises of `RuleFRA` and of `RuleFRT`. -/
abbrev MetFRA (code : Byte) : Prop := MetBad code ∧ MetW code [Reg.sp.byte, 0xFF, 0xFF]

/-- The premises of `RuleFRIT`. -/
abbrev MetFRIT (code : Byte) : Prop :=
  MetBad code ∧ Met [opByte .word code, Reg.sp.byte, 0xFF, 0xFF, 0x34, 0x12] ∧
    Met [opByte .byte code, Reg.sp.byte, 0xFF, 0x34, 0x12]

/-- The premises of `RuleFRAT`. -/
abbrev MetFRAT (code : Byte) : Prop := MetBad code ∧ MetW code [Reg.sp.byte, 0xFF, 0xFF, 0x34, 0x12]

theorem witness_NopHasNoEffect : MetW 0x00 [] := by decide

theorem witness_RegisterArithmeticWrapsModulo65536 : MetFRR 0x01 ∧ MetFRR 0x04 ∧ MetFRR 0x07 := by decide

theorem witness_ImmediateArithmeticWrapsAtTheForm : MetFRI 0x02 ∧ MetFRI 0x05 ∧ MetFRI 0x08 := by decide

theorem witness_MemoryArithmeticWrapsAtTheForm : MetFRA 0x03 ∧ MetFRA 0x06 ∧ MetFRA 0x09 := by decide

theorem witness_DivideByRegister :
    MetFRR 0x0A ∧ State.reset.readReg .r0 = 0 ∧ State.reset.readReg .sp ≠ 0 := by decide

theorem witness_DivideByImmediate :
    MetFRI 0x0B ∧ (0x0000 : Word).toNat % Width.word.pick 65536 256 = 0 ∧
      (0x0100 : Word).toNat % Width.word.pick 65536 256 ≠ 0 ∧
      (0x0100 : Word).toNat % Width.byte.pick 65536 256 = 0 ∧
      (0x00FF : Word).toNat % Width.byte.pick 65536 256 ≠ 0 := by decide

theorem witness_DivideByMemory :
    MetFRA 0x0C ∧ (data 0x0000 [0x01]).memRead 0xFFFF .byte = 0 ∧ (data 0x0000 [0x01]).memRead 0xFFFF .word ≠ 0 ∧
      State.reset.memRead 0xFFFF .word = 0 ∧ (data 0xFFFF [0x01]).memRead 0xFFFF .byte ≠ 0 := by decide

theorem witness_CompareRegisters : MetFRR 0x0E := by decide

theorem witness_CompareWithMemory : MetFRA 0x0F := by decide

theorem witness_IncrementAndDecrementRegister : MetFR 0x10 ∧ MetFR 0x12 := by decide

theorem witness_IncrementAndDecrementMemory : MetW 0x11 [0xFF, 0xFF] ∧ MetW 0x13 [0xFF, 0xFF] := by decide

theorem witness_ZeroExtendRegister : MetFR 0x20 := by decide

theorem witness_LoadRegister : MetFRR 0x30 := by decide

theorem witness_LoadConstant : MetFRI 0x31 := by decide

theorem witness_LoadMemory : MetFRA 0x32 := by decide

theorem witness_CallPushesTheReturnAddress : MetW 0x40 [0xFF, 0xFF] := by decide

theorem witness_ReturnPopsThePc : MetW 0x41 [] := by decide

theorem witness_JumpSetsThePc : MetW 0x42 [0xFF, 0xFF] := by decide

theorem witness_BranchIfRegisterIsZero :
    MetFRA 0x43 ∧ State.reset.readReg .r0 = 0 ∧ State.reset.readReg .sp ≠ 0 := by decide

theorem witness_CompareAndBranchOnImmediate :
    (MetFRIT 0x44 ∧ MetFRIT 0x45 ∧ MetFRIT 0x46) ∧ MetFRIT 0x47 ∧ MetFRIT 0x48 ∧ MetFRIT 0x49 :=
  ⟨by decide, by decide⟩

theorem witness_CompareAndBranchOnMemory :
    (MetFRAT 0x4A ∧ MetFRAT 0x4B ∧ MetFRAT 0x4C) ∧ MetFRAT 0x4D ∧ MetFRAT 0x4E ∧ MetFRAT 0x4F :=
  ⟨by decide, by decide⟩

theorem witness_PushAlwaysPushesAWord : MetFR 0x60 := by decide

theorem witness_PopWritesTheRegisterAfterSp : MetFR 0x63 ∧ Reg.pc ≠ .sp := by decide

theorem witness_PopToMemory : MetW 0x64 [0xFF, 0xFF] := by decide

theorem witness_PushStatus : MetW 0x65 [] := by decide

theorem witness_PopStatus : MetW 0x66 [] := by decide

theorem witness_ResetOpcodeClearsTheCore : MetW 0x7E [] := by decide

theorem witness_HaltSetsHalted :
    MetW 0x7F [] ∧ ({ State.reset with halted := true } : State).halted = true ∧
      (after { State.reset with halted := true, cyc := 1 }).map (fun t => t.halted) = some true ∧
      (starting [0x7F]).halted = false ∧ (after (starting [0x7F])).map (fun t => t.halted) = some true := by decide

theorem witness_RegisterSlotsReadBack : 7 < (0x08 : Byte).toNat := by decide

/-- The default layout and one with the flags in the opposite order; position 7 or 0 is then the unused one. -/
theorem witness_StatusByteHoldsEachFlagAtItsPosition :
    Config.StatusLayout.standard.Injective ∧ (7 : Fin 8) ∉ Config.StatusLayout.standard.positions ∧
      Config.StatusLayout.Injective ⟨7, 6, 5, 4, 3, 2, 1⟩ ∧
      (0 : Fin 8) ∉ Config.StatusLayout.positions ⟨7, 6, 5, 4, 3, 2, 1⟩ := by decide

theorem witness_DecodeInvertsEncode :
    (Instr.ldc .byte .sp 0x00FF).wf = true ∧ (Instr.jre .word .sp 0xFFFF 0xFFFF).wf = true := by decide

theorem witness_DecodedBytesAreTheEncoding :
    decode [0xE3, 0x07, 0x5A] = .ok (.pop .byte .sp, [0x5A]) ∧ (Instr.pop .byte .sp).hasWidthChoice = true := by decide

theorem witness_StepRunsTheDecodedInstruction :
    (starting [0x7F]).running = true ∧ decode ((starting [0x7F]).bytesAt 0xFFFE 6) = .ok (.halt, [0, 0, 0, 0, 0]) := by
  decide

theorem witness_UndefinedOpcodesFault :
    (starting [0x7D]).running = true ∧ opcodeOf ((starting [0x7D]).readByte 0xFFFE) = 0x7D ∧
      decode ((starting [0x8D]).bytesAt 0xFFFE 6) = .error (.illegalOpcode 0x0D) := by decide

theorem witness_BadRegisterBytesFault :
    (starting [0x10, 0x08]).running = true ∧
      decode ((starting [0x10, 0x08]).bytesAt 0xFFFE 6) = .error (.illegalRegister 1) ∧
      decode ((starting [0x01, 0x07, 0xFF]).bytesAt 0xFFFE 6) = .error (.illegalRegister 2) := by decide

theorem witness_StoppedCoreStaysAsItIs :
    (State.reset).cyc ≤ 0 ∧ (after (starting [0x7F])).map (fun t => t.halted) = some true ∧
      (after (starting [0x0D])).map (fun t => decide (t.fault ≠ none)) = some true := by decide

/-- A fault of an opcode, of a register byte, and of a divisor. -/
theorem witness_FaultsArePrecise :
    (starting [0x0D]).fault = none ∧
      (after (starting [0x0D])).map (fun t => t.fault) = some (some .illegalInstruction) ∧
      (after (starting [0x01, 0x00, 0x08])).map (fun t => t.fault) = some (some .illegalInstruction) ∧
      (after (starting [0x0C, 0x00, 0x00, 0x03])).map (fun t => t.fault) = some (some .divideByZero) := by decide

theorem witness_OnlyFourInstructionsChangeFlags :
    ∃ t, exec (.cmp .r0 .r0) State.reset = .next t ∧ t.flags ≠ State.reset.flags := ⟨_, rfl, by decide⟩

theorem witness_OnlyHaltChangesHalted :
    (starting [0xFF]).halted = false ∧ (after (starting [0xFF])).map (fun t => t.halted) = some true := by decide

theorem witness_FlagsDoNotInfluenceExecution :
    (∀ rest, decode (State.reset.bytesAt State.reset.pc 6) ≠ .ok (.pushs, rest)) ∧
      ∃ t, exec .nop { State.reset with flags := allSet } = .next t ∧ Instr.nop ≠ .pops ∧ t.flags.b = true :=
  ⟨fun rest h => (nomatch
    (show decode (State.reset.bytesAt State.reset.pc 6) = .ok (.nop, [0, 0, 0, 0, 0]) by decide).symm.trans h),
    _, rfl, by decide, rfl⟩

theorem witness_CycleCounterDoesNotInfluenceExecution : (starting [0x7F]).running = true ∧ (0 : Int) < 8 := by decide

/-- Any instruction but JRZ, and JRZ taken. -/
theorem witness_LengthsAndCyclesFollowTheTable :
    ((starting [0x7F]).running = true ∧ decode ((starting [0x7F]).bytesAt 0xFFFE 6) = .ok (.halt, [0, 0, 0, 0, 0]) ∧
      ∀ r target, Instr.halt = .jrz r target → true = decide (((starting [0x7F]).fetched 2).readReg r = 0)) ∧
    ((starting [0x43]).running = true ∧
      decode ((starting [0x43]).bytesAt 0xFFFE 6) = .ok (.jrz .r0 0x0000, [0, 0]) ∧
      ∀ r target, Instr.jrz .r0 0x0000 = .jrz r target →
        true = decide (((starting [0x43]).fetched 2).readReg r = 0)) := by
  refine ⟨⟨by decide, by decide, fun _ _ h => nomatch h⟩, by decide, by decide, fun r _ h => ?_⟩
  cases h
  decide

theorem witness_StepKeepsTheInvariant :
    (starting [0x60, 0x07]).Inv ∧ (after (starting [0x60, 0x07])).isSome = true :=
  ⟨⟨by decide, by decide, by decide, by decide⟩, by decide⟩

theorem witness_HostActsOnlyBetweenRuns : (starting []).running = true ∧ State.reset.running = false := by decide

theorem witness_RunIsTheLoop :
    ({ State.reset with cyc := 0 } : State).running = false ∧
      ({ State.reset with cyc := 1 } : State).running = true := by decide

/-- The smallest budget, and the overdraw of E5: the bound is reached. -/
theorem witness_RunOverdrawsByAtMostSeven :
    (0 : Int) < 1 ∧ (runBudget 1 (data 0x0000 [0x4A])).cyc = -7 := by decide

theorem witness_SplitRunsGiveTheSameResult :
    (0 : Int) < 1 ∧ (runBudget 2 State.reset).halted = false ∧ (runBudget 2 State.reset).fault = none := by decide

/-- The state in which the POP's two bytes have been fetched after the PUSH meets what is asked of it. -/
theorem witness_PopAfterPush :
    ∃ t t' : State, exec (.push .r0) State.reset = .next t ∧ t' = t.fetched 2 ∧ t'.sp = t.sp ∧
      t'.readByte t.sp = t.readByte t.sp ∧ t'.readByte (t.sp + 1) = t.readByte (t.sp + 1) ∧
      Reg.r1 ≠ .sp ∧ Reg.r2 ≠ .r1 ∧ Reg.r2 ≠ .sp :=
  ⟨_, _, rfl, rfl, rfl, rfl, rfl, by decide, by decide, by decide⟩

/-- The state in which the POPS byte has been fetched after the PUSHS meets what is asked of it. -/
theorem witness_PopStatusAfterPushStatus :
    ∃ t t' : State, State.reset.layout.Injective ∧ exec .pushs State.reset = .next t ∧ t' = t.fetched 1 ∧
      t'.layout = t.layout ∧ t'.sp = t.sp ∧ t'.readByte t.sp = t.readByte t.sp ∧
      t'.readByte (t.sp + 1) = t.readByte (t.sp + 1) :=
  ⟨_, _, by decide, rfl, rfl, rfl, rfl, rfl, rfl⟩

/-- The state after the JSR itself meets what is asked of the state at the RTN. -/
theorem witness_ReturnAfterCall :
    ∃ t t' : State, exec (.jsr 0x0010) State.reset = .next t ∧ t'.sp = t.sp ∧ t'.readByte t.sp = t.readByte t.sp ∧
      t'.readByte (t.sp + 1) = t.readByte (t.sp + 1) := ⟨_, _, rfl, rfl, rfl, rfl⟩

end Sys2Proof.Tests
end

/-! The register file (spec/10_state.md R10, R12): what each slot reads, what a write to it changes, and the numbers of
the slots. -/

namespace Sys2Proof.Machine

/-- A register read after a register write. -/
theorem readReg_writeReg (s : State) (r r' : Reg) (v : Word) :
    (s.writeReg r v).readReg r' = if r' = r then v else s.readReg r' := by
  split
  case isTrue h => rw [h, readReg_writeReg_same]
  case isFalse h => exact readReg_writeReg_ne s v h

/-- Settles O29: the slots are the named fields, and a read after a write is `readReg_writeReg`. -/
theorem registerSlotsReadBack : Obligations.RegisterSlotsReadBack := by
  refine ⟨fun s => ?reads, fun s v => ?writes, readReg_writeReg, ?numbers, reg_ofByte_byte, fun b => ?noSlot⟩
  case reads => exact ⟨rfl, rfl, rfl, rfl, rfl, rfl, rfl, rfl⟩
  case writes => exact ⟨rfl, rfl, rfl, rfl, rfl, rfl, rfl, rfl⟩
  case numbers => exact ⟨rfl, rfl, rfl, rfl, rfl, rfl, rfl, rfl⟩
  case noSlot => exact reg_ofByte_eq_none.2

end Sys2Proof.Machine

/-! The fetch of `step` reads the instruction that `decode` finds in the six bytes at `pc`, and raises where `decode`
rejects them (spec/40_execution_loop.md R67). -/

namespace Sys2Proof.Machine

/-- How many bytes have been fetched when the fetch raises: those up to the one at fault (R127, R128). In memory the
bytes never end, so that `truncated` does not occur. -/
def bytesFetchedAt (e : DecodeError) : Nat :=
  match e with
  | .truncated => 0
  | .illegalOpcode _ => 1
  | .illegalRegister before => before + 1

/-- What the fetch answers where the bytes at `pc` decode to `d`. -/
def State.fetchAnswer (s : State) (d : Except DecodeError (Instr × List Byte)) : Except State (Instr × State) :=
  match d with
  | .ok (i, _) => .ok (i, s.fetched i.fetchedBytes)
  | .error e => .error (s.faultedAfter (bytesFetchedAt e))

@[simp] theorem fetchAnswer_ok (s : State) (i : Instr) (rest : List Byte) :
    s.fetchAnswer (.ok (i, rest)) = .ok (i, s.fetched i.fetchedBytes) := rfl

@[simp] theorem fetchAnswer_error (s : State) (e : DecodeError) :
    s.fetchAnswer (.error e) = .error (s.faultedAfter (bytesFetchedAt e)) := rfl

/-- The instructions that a format builds have the format's count of bytes to fetch (R47, R48). -/
def FormatSized (f : Format) : Prop :=
  match f with
  | .f0 make => make.fetchedBytes = 1
  | .fr make => ∀ w r, (make w r).fetchedBytes = 2
  | .frr make => ∀ reg1 reg2, (make reg1 reg2).fetchedBytes = 3
  | .fri make => ∀ w r imm, (make w r imm).fetchedBytes = w.pick 4 3
  | .fra make => ∀ w r addr, (make w r addr).fetchedBytes = 4
  | .fa make => ∀ w addr, (make w addr).fetchedBytes = 3
  | .ft make => ∀ target, (make target).fetchedBytes = 3
  | .frt make => ∀ r target, (make r target).fetchedBytes = 2
  | .frit make => ∀ w r imm target, (make w r imm target).fetchedBytes = w.pick 6 5
  | .frat make => ∀ w r addr target, (make w r addr target).fetchedBytes = 6

/-- Every row of the opcode table has its format's count of bytes. -/
theorem formatSized_of_opcodeFormat {op : BitVec 7} {f : Format} (h : opcodeFormat op = some f) : FormatSized f := by
  unfold opcodeFormat at h
  split at h <;> cases h <;> simp only [FormatSized] <;> intros <;> rfl

/-! ### Peeling the two operand readers apart -/

@[simp] theorem except_ok_bind {ε α β : Type} (a : α) (k : α → Except ε β) : (Except.ok a >>= k) = k a := rfl

@[simp] theorem except_error_bind {ε α β : Type} (e : ε) (k : α → Except ε β) :
    ((Except.error e : Except ε α) >>= k) = .error e := rfl

@[simp] theorem except_pure {ε α : Type} (a : α) : (pure a : Except ε α) = .ok a := rfl

@[simp] theorem takeWord_cons (b0 b1 : Byte) (rest : List Byte) :
    takeWord (b0 :: b1 :: rest) = .ok (wordOf b0 b1, rest) := rfl

@[simp] theorem takeImm_byte_cons (b : Byte) (rest : List Byte) :
    takeImm .byte (b :: rest) = .ok (zext16 b, rest) := rfl

@[simp] theorem takeImm_word (bs : List Byte) : takeImm .word bs = takeWord bs := rfl

/-- A word fetched after `n` bytes. -/
@[simp] theorem fetched_fetchWord (s : State) (n : Nat) :
    (s.fetched n).fetchWord =
      (wordOf (s.readByte (s.pc + BitVec.ofNat 16 n)) (s.readByte (s.pc + BitVec.ofNat 16 (n + 1))),
        s.fetched (n + 2)) := by
  rw [fetchWord_eq, fetched_fetched, fetched_pc, fetched_readByte, fetched_readByte, BitVec.add_assoc,
    BitVec.ofNat_add]
  rfl

/-- A byte immediate fetched after `n` bytes. -/
@[simp] theorem fetched_fetchImm_byte (s : State) (n : Nat) :
    (s.fetched n).fetchImm .byte = (zext16 (s.readByte (s.pc + BitVec.ofNat 16 n)), s.fetched (n + 1)) := by
  rw [fetchImm_eq, fetched_fetched]
  rfl

@[simp] theorem fetchImm_word (s : State) : s.fetchImm .word = s.fetchWord := rfl

/-- A register operand that stands after `n` bytes is taken from the bytes and fetched alike. -/
theorem takeReg_fetchReg_cases (s : State) (n : Nat) :
    (∃ r, (∀ rest, takeReg n (s.readByte (s.pc + BitVec.ofNat 16 n) :: rest) = .ok (r, rest)) ∧
      (s.fetched n).fetchReg = .ok (r, s.fetched (n + 1))) ∨
    ((∀ rest, takeReg n (s.readByte (s.pc + BitVec.ofNat 16 n) :: rest) = .error (.illegalRegister n)) ∧
      (s.fetched n).fetchReg = .error (s.faultedAfter (n + 1))) := by
  obtain ⟨r, hb, hf⟩ | ⟨hb, hf⟩ := fetchReg_cases (s.fetched n)
  · rw [fetched_readByte, fetched_pc] at hb
    exact .inl ⟨r, by simp [takeReg, hb], by rw [hf, fetched_fetched]⟩
  · rw [fetched_readByte, fetched_pc] at hb
    exact .inr ⟨by simp [takeReg, reg_ofByte_eq_none.2 hb], by rw [hf]; simp [State.faultedAfter]⟩

/-- The operands of a format are fetched from the stream as they are decoded from the bytes after the first. -/
theorem fetchOperands_eq_decodeOperands (s : State) (w : Width) {f : Format} (hf : FormatSized f) :
    State.fetchOperands w f (s.fetched 1) = s.fetchAnswer (decodeOperands w f (s.bytesAt (s.pc + 1) 5)) := by
  have h1 := takeReg_fetchReg_cases s 1
  have h2 := takeReg_fetchReg_cases s 2
  simp only [State.bytesAt, BitVec.add_assoc, BitVec.ofNat_eq_ofNat, BitVec.reduceAdd] at h1 h2 ⊢
  unfold State.fetchOperands decodeOperands
  cases f with
  | f0 make => simp [show make.fetchedBytes = 1 from hf]
  | fa make => simp [hf w]
  | ft make => simp [hf _]
  | fr make => obtain ⟨r, ht, hr⟩ | ⟨ht, hr⟩ := h1 <;> simp [ht, hr, hf w, bytesFetchedAt]
  | fra make => obtain ⟨r, ht, hr⟩ | ⟨ht, hr⟩ := h1 <;> simp [ht, hr, hf w, bytesFetchedAt]
  | frt make => obtain ⟨r, ht, hr⟩ | ⟨ht, hr⟩ := h1 <;> simp [ht, hr, hf _, bytesFetchedAt, BitVec.add_assoc]
  | frat make => obtain ⟨r, ht, hr⟩ | ⟨ht, hr⟩ := h1 <;> simp [ht, hr, hf w, bytesFetchedAt]
  | fri make =>
    obtain ⟨r, ht, hr⟩ | ⟨ht, hr⟩ := h1
    · cases w <;> simp [ht, hr, hf _ r, Width.pick]
    · simp [ht, hr, bytesFetchedAt]
  | frit make =>
    obtain ⟨r, ht, hr⟩ | ⟨ht, hr⟩ := h1
    · cases w <;> simp [ht, hr, hf _ r, Width.pick]
    · simp [ht, hr, bytesFetchedAt]
  | frr make =>
    obtain ⟨r, ht, hr⟩ | ⟨ht, hr⟩ := h1
    · obtain ⟨q, ht', hq⟩ | ⟨ht', hq⟩ := h2 <;> simp [ht, hr, ht', hq, hf r, bytesFetchedAt]
    · simp [ht, hr, bytesFetchedAt]

/-- The fetch of one instruction, told by the decoder: the six bytes at `pc` always decide. -/
theorem fetchInstr_eq_decode (s : State) : s.fetchInstr = s.fetchAnswer (decode (s.bytesAt s.pc 6)) := by
  have hbytes : s.bytesAt s.pc 6 = s.readByte s.pc :: s.bytesAt (s.pc + 1) 5 := rfl
  rw [hbytes, decode, State.fetchInstr, fetchByte_eq]
  cases hf : opcodeFormat (opcodeOf (s.readByte s.pc)) with
  | none => rfl
  | some f => exact fetchOperands_eq_decodeOperands s _ (formatSized_of_opcodeFormat hf)

/-- R67: a step of a running core whose bytes at `pc` decode runs the decoded instruction after its fetches. -/
theorem step_of_decode_ok {s : State} {i : Instr} {rest : List Byte} (hr : s.running = true)
    (hd : decode (s.bytesAt s.pc 6) = .ok (i, rest)) : step s = exec i (s.fetched i.fetchedBytes) := by
  rw [step_of_running hr, fetchInstr_eq_decode, hd]
  rfl

/-- R127, R128: a step of a running core whose bytes at `pc` do not decode takes the fault of the byte at fault. -/
theorem step_of_decode_error {s : State} {e : DecodeError} (hr : s.running = true)
    (hd : decode (s.bytesAt s.pc 6) = .error e) : step s = .next (s.faultedAfter (bytesFetchedAt e)) := by
  rw [step_of_running hr, fetchInstr_eq_decode, hd]
  rfl

end Sys2Proof.Machine

/-! Non-interference of the flags (spec/10_state.md R20, R21): every operation of the machine does to a state with other
flags what it does to the state, and what an instruction does to the flags depends on no flag that it does not keep. -/

namespace Sys2Proof.Machine

/-- The state with other flags. -/
def State.withFlags (s : State) (f : Flags) : State := { s with flags := f }

/-! ### What does not see the flags -/

theorem readReg_withFlags (s : State) (f : Flags) (r : Reg) : (s.withFlags f).readReg r = s.readReg r := rfl

theorem bytesAt_withFlags (s : State) (f : Flags) (a : Word) (n : Nat) :
    (s.withFlags f).bytesAt a n = s.bytesAt a n := by
  induction n generalizing a with
  | zero => rfl
  | succ n ih => exact congrArg (s.readByte a :: ·) (ih (a + 1))

/-! ### What keeps the flags -/

theorem writeReg_withFlags (s : State) (f : Flags) (r : Reg) (v : Word) :
    (s.withFlags f).writeReg r v = (s.writeReg r v).withFlags f := by
  cases r <;> rfl

theorem storeData_withFlags (s : State) (f : Flags) (a : Word) (w : Width) (v : Word) :
    (s.withFlags f).storeData a w v = (s.storeData a w v).withFlags f := by
  cases w <;> rfl

theorem push_withFlags (s : State) (f : Flags) (w : Width) (v : Word) :
    (s.withFlags f).push w v = (s.push w v).withFlags f := by
  cases w <;> rfl

theorem aluInto_withFlags (s : State) (f : Flags) (k : AluOp) (w : Width) (r : Reg) (b : Word) :
    (s.withFlags f).aluInto k w r b = (s.aluInto k w r b).withFlags f := by
  unfold State.aluInto
  rw [readReg_withFlags]
  cases alu k w (s.readReg r) b with
  | some v => exact writeReg_withFlags s f r v
  | none => rfl

theorem branch_withFlags (s : State) (f : Flags) (k : Cond) (r : Reg) (v target : Word) :
    (s.withFlags f).branch k r v target = (s.branch k r v target).withFlags f := by
  rw [branch_eq, branch_eq]
  rfl

/-! ### What an instruction does to the flags -/

/-- The flags that an instruction leaves, from the flags that it finds (R18, R20). -/
def flagsAfter (i : Instr) (s : State) (f : Flags) : Flags :=
  match i with
  | .cmp reg1 reg2 => f.compared .word (difference .word (s.readReg reg1) (s.readReg reg2))
  | .cmpa w r addr => f.compared w (difference w (s.readReg r) (s.memRead addr w))
  | .pops => Flags.unpack s.layout (loByte (s.memRead s.sp .word))
  | .reset => Flags.unpack s.layout 0
  | _ => f

/-- From every state that differs from `s` in the flags alone, the instruction leads to `t` but for the flags. -/
def FlagBlind (i : Instr) (s t : State) : Prop :=
  ∀ f, exec i (s.withFlags f) = .next (t.withFlags (flagsAfter i s f))

/-- What a flag-blind instruction does from `s` itself. -/
theorem FlagBlind.exec_eq {i : Instr} {s t : State} (h : FlagBlind i s t) :
    exec i s = .next (t.withFlags (flagsAfter i s s.flags)) := h s.flags

/-- R21, for an instruction: every one but PUSHS is flag-blind, since the operations that it is made of are. -/
theorem exec_flagBlind (i : Instr) (s : State) (hi : i ≠ .pushs) : ∃ t, FlagBlind i s t := by
  cases i with
  | pushs => exact absurd rfl hi
  | nop => exact ⟨s, fun f => rfl⟩
  | add reg1 reg2 | sub reg1 reg2 | mul reg1 reg2 | div reg1 reg2 =>
    exact ⟨_, fun f => congrArg Host.Outcome.next (aluInto_withFlags s f _ .word reg1 (s.readReg reg2))⟩
  | addc w r imm | subc w r imm | mulc w r imm | divc w r imm =>
    exact ⟨_, fun f => congrArg Host.Outcome.next (aluInto_withFlags s f _ w r imm)⟩
  | adda w r addr | suba w r addr | mula w r addr | diva w r addr =>
    exact ⟨_, fun f => congrArg Host.Outcome.next (aluInto_withFlags (s.charge w.bytes) f _ w r (s.memRead addr w))⟩
  | cmp reg1 reg2 => exact ⟨s, fun f => rfl⟩
  | cmpa w r addr => exact ⟨s.charge w.bytes, fun f => rfl⟩
  | inc r => exact ⟨_, fun f => congrArg Host.Outcome.next (writeReg_withFlags s f r (sum .word (s.readReg r) 1))⟩
  | dec r =>
    exact ⟨_, fun f => congrArg Host.Outcome.next (writeReg_withFlags s f r (difference .word (s.readReg r) 1))⟩
  | uxt r =>
    exact ⟨_, fun f => congrArg Host.Outcome.next (writeReg_withFlags s f r (zext16 (loByte (s.readReg r))))⟩
  | ldr reg1 reg2 => exact ⟨_, fun f => congrArg Host.Outcome.next (writeReg_withFlags s f reg1 (s.readReg reg2))⟩
  | ldc w r imm => exact ⟨_, fun f => congrArg Host.Outcome.next (writeReg_withFlags s f r imm)⟩
  | ldm w r addr =>
    exact ⟨_, fun f => congrArg Host.Outcome.next (writeReg_withFlags (s.charge w.bytes) f r (s.memRead addr w))⟩
  | incm w addr =>
    exact ⟨_, fun f => congrArg Host.Outcome.next
      (storeData_withFlags (s.charge w.bytes) f addr w (sum w (s.memRead addr w) 1))⟩
  | decm w addr =>
    exact ⟨_, fun f => congrArg Host.Outcome.next
      (storeData_withFlags (s.charge w.bytes) f addr w (difference w (s.memRead addr w) 1))⟩
  | jsr target =>
    exact ⟨(s.push .word s.pc).jump target, fun f =>
      congrArg (fun t => Host.Outcome.next (State.jump t target)) (push_withFlags s f .word s.pc)⟩
  | rtn => exact ⟨(s.pop .word).2.jump (s.pop .word).1, fun f => rfl⟩
  | jmp target => exact ⟨s.jump target, fun f => rfl⟩
  | jrz r target =>
    by_cases h : s.readReg r = 0
    · exact ⟨(s.charge 2).jump target, fun f => congrArg Host.Outcome.next (if_pos h)⟩
    · exact ⟨s.jump (s.pc + 2), fun f => congrArg Host.Outcome.next (if_neg h)⟩
  | jre w r v target | jrn w r v target | jrg w r v target | jrge w r v target | jrl w r v target
  | jrle w r v target => exact ⟨_, fun f => congrArg Host.Outcome.next (branch_withFlags s f _ r v target)⟩
  | jrem w r addr target | jrnm w r addr target | jrgm w r addr target | jrgem w r addr target
  | jrlm w r addr target | jrlem w r addr target =>
    exact ⟨_, fun f => congrArg Host.Outcome.next
      (branch_withFlags (s.charge w.bytes) f _ r (s.memRead addr w) target)⟩
  | push r => exact ⟨_, fun f => congrArg Host.Outcome.next (push_withFlags s f .word (s.readReg r))⟩
  | pop w r => exact ⟨_, fun f => congrArg Host.Outcome.next (writeReg_withFlags (s.pop w).2 f r (s.pop w).1)⟩
  | popm w addr =>
    exact ⟨_, fun f => congrArg Host.Outcome.next (storeData_withFlags (s.pop w).2 f addr w (s.pop w).1)⟩
  | pops => exact ⟨(s.pop .word).2, fun f => rfl⟩
  | reset => exact ⟨s.resetCore, fun f => rfl⟩
  | halt => exact ⟨{ s with halted := true }, fun f => rfl⟩

/-- PUSHS stores the status byte of the flags that it finds, and keeps them. -/
theorem exec_pushs_withFlags (s : State) (f : Flags) :
    exec .pushs (s.withFlags f) = .next ((s.push .word (zext16 (f.pack s.layout))).withFlags f) :=
  congrArg Host.Outcome.next (push_withFlags s f .word _)

/-- The flags after an instruction are `flagsAfter`. -/
theorem exec_flags {i : Instr} {s t : State} (h : exec i s = .next t) : t.flags = flagsAfter i s s.flags := by
  by_cases hi : i = .pushs
  · subst hi
    cases h
    exact (frame_push s .word _).flags
  · obtain ⟨u, hu⟩ := exec_flagBlind i s hi
    cases h.symm.trans hu.exec_eq
    rfl

/-- No instruction but POPS sets B (R18, R20, R21). -/
theorem flagsAfter_b {i : Instr} (s : State) {f : Flags} (hi : i ≠ .pops) (hb : (flagsAfter i s f).b = true) :
    f.b = true := by
  cases i with
  | pops => exact absurd rfl hi
  | reset => simp [flagsAfter, Flags.unpack] at hb
  | _ => exact hb

/-- R21, for a step: where it does not run PUSHS, two states that differ in the flags alone lead to two such states. -/
theorem step_withFlags (s : State) (f : Flags) (hp : ∀ rest, decode (s.bytesAt s.pc 6) ≠ .ok (.pushs, rest)) :
    ∃ t g, step s = .next t ∧ step (s.withFlags f) = .next (t.withFlags g) := by
  have hbytes : (s.withFlags f).bytesAt (s.withFlags f).pc 6 = s.bytesAt s.pc 6 := bytesAt_withFlags s f s.pc 6
  cases hr : s.running with
  | false => exact ⟨s, f, step_of_not_running hr, step_of_not_running hr⟩
  | true =>
    cases hd : decode (s.bytesAt s.pc 6) with
    | error e => exact ⟨_, f, step_of_decode_error hr hd, step_of_decode_error hr (hbytes ▸ hd)⟩
    | ok d =>
      obtain ⟨i, rest⟩ := d
      have hi : i ≠ .pushs := fun hi => hp rest (hi ▸ hd)
      obtain ⟨t, ht⟩ := exec_flagBlind i (s.fetched i.fetchedBytes) hi
      exact ⟨t.withFlags (flagsAfter i (s.fetched i.fetchedBytes) s.flags), flagsAfter i (s.fetched i.fetchedBytes) f,
        (step_of_decode_ok hr hd).trans ht.exec_eq,
        (step_of_decode_ok (s := s.withFlags f) hr (hbytes ▸ hd)).trans (ht f)⟩

/-- Two pushes of zero-extended bytes differ in the cell of the low byte alone. -/
theorem push_zext16_readByte (s : State) (b b' : Byte) {a : Word} (ha : a ≠ s.sp - 2) :
    (s.push .word (zext16 b)).readByte a = (s.push .word (zext16 b')).readByte a := by
  have ha' : a ≠ s.sp - BitVec.ofNat 16 Width.word.bytes := ha
  simp only [push_readByte, readByte_memWrite_word, if_neg ha', hiByte_zext16]

/-- Settles O46, by `exec_flagBlind` for the steps, `push_zext16_readByte` for PUSHS and `flagsAfter_b` for B. -/
theorem flagsDoNotInfluenceExecution : Obligations.FlagsDoNotInfluenceExecution := by
  refine ⟨step_withFlags, fun s f => ?pushs, fun i s t h hi hb => flagsAfter_b s hi (exec_flags h ▸ hb)⟩
  case pushs =>
    exact ⟨_, (s.push .word (zext16 (f.pack s.layout))).mem, rfl, exec_pushs_withFlags s f,
      fun a ha => push_zext16_readByte s _ _ ha⟩

end Sys2Proof.Machine

/-! The instruction without an effect (spec/41_arithmetic.md R74). -/

namespace Sys2Proof.Machine

@[simp] theorem exec_nop (s : State) : exec .nop s = .next s := rfl

/-- Settles O1: 0x00 is of format F0, so that both spellings run `exec .nop` after one byte is fetched and charged, and
there `exec_nop` leaves the state as it is. -/
theorem nopHasNoEffect : Obligations.NopHasNoEffect := by
  have hcode : (0x00 : Byte).toNat < 128 := by decide
  have hformat : opcodeFormat (opcodeOf 0x00) = some (.f0 .nop) := rfl
  exact ⟨ruleF0_of_format hcode hformat, exec_nop⟩

end Sys2Proof.Machine

/-! The return (spec/44_control_transfer.md R101): a word is popped, and becomes `pc`. -/

namespace Sys2Proof.Machine

/-- A pop of a word: its two bytes stand at `sp` and at the address after it, modulo 65536 (R66). -/
theorem pop_word (s : State) :
    s.pop .word =
      (wordOf (s.readByte s.sp) (s.readByte (s.sp + 1)), { s with sp := s.sp + 2, cyc := s.cyc - 2 }) := by
  rw [pop_eq, memRead_word]
  rfl

theorem exec_rtn (s : State) : exec .rtn s = .next ((s.pop .word).2.jump (s.pop .word).1) := rfl

/-- Settles O17: 0x41 is of format F0, so that both spellings run `exec .rtn` after one byte is fetched and charged, and
there the popped word of `pop_word` is the target of the jump. -/
theorem returnPopsThePc : Obligations.ReturnPopsThePc := by
  refine ⟨ruleF0_of_format (by decide) rfl, fun s => ?pops⟩
  case pops =>
    rw [exec_rtn, pop_word]
    rfl

end Sys2Proof.Machine

/-! HALT (spec/46_system.md R124): which bytes decode to it, what the other instructions leave of `halted`, and what a
run of a halted core is. -/

namespace Sys2Proof.Machine

/-! ### Which bytes decode to HALT -/

/-- The instructions that a format builds from operands. -/
def FormatMakes (f : Format) (i : Instr) : Prop :=
  match f with
  | .f0 make => i = make
  | .fr make => ∃ w r, i = make w r
  | .frr make => ∃ reg1 reg2, i = make reg1 reg2
  | .fri make => ∃ w r imm, i = make w r imm
  | .fra make => ∃ w r addr, i = make w r addr
  | .fa make => ∃ w addr, i = make w addr
  | .ft make => ∃ target, i = make target
  | .frt make => ∃ r target, i = make r target
  | .frit make => ∃ w r imm target, i = make w r imm target
  | .frat make => ∃ w r addr target, i = make w r addr target

/-- A computation that goes on after a first part answers only where that part did. -/
theorem except_bind_eq_ok {ε α β : Type} {x : Except ε α} {k : α → Except ε β} {b : β} (h : (x >>= k) = .ok b) :
    ∃ a, x = .ok a ∧ k a = .ok b := by
  cases x with
  | ok a => exact ⟨a, rfl, h⟩
  | error e => cases h

/-- What the operands of a format decode to is an instruction that the format builds. -/
theorem formatMakes_of_decodeOperands {w : Width} {f : Format} {bs rest : List Byte} {i : Instr}
    (h : decodeOperands w f bs = .ok (i, rest)) : FormatMakes f i := by
  unfold decodeOperands at h
  cases f with
  | f0 make => cases h; rfl
  | fr make =>
    obtain ⟨⟨r, _⟩, -, h⟩ := except_bind_eq_ok h
    cases h
    exact ⟨w, r, rfl⟩
  | frr make =>
    obtain ⟨⟨reg1, _⟩, -, h⟩ := except_bind_eq_ok h
    obtain ⟨⟨reg2, _⟩, -, h⟩ := except_bind_eq_ok h
    cases h
    exact ⟨reg1, reg2, rfl⟩
  | fri make =>
    obtain ⟨⟨r, _⟩, -, h⟩ := except_bind_eq_ok h
    obtain ⟨⟨imm, _⟩, -, h⟩ := except_bind_eq_ok h
    cases h
    exact ⟨w, r, imm, rfl⟩
  | fra make =>
    obtain ⟨⟨r, _⟩, -, h⟩ := except_bind_eq_ok h
    obtain ⟨⟨addr, _⟩, -, h⟩ := except_bind_eq_ok h
    cases h
    exact ⟨w, r, addr, rfl⟩
  | fa make =>
    obtain ⟨⟨addr, _⟩, -, h⟩ := except_bind_eq_ok h
    cases h
    exact ⟨w, addr, rfl⟩
  | ft make =>
    obtain ⟨⟨target, _⟩, -, h⟩ := except_bind_eq_ok h
    cases h
    exact ⟨target, rfl⟩
  | frt make =>
    obtain ⟨⟨r, _⟩, -, h⟩ := except_bind_eq_ok h
    obtain ⟨⟨target, _⟩, -, h⟩ := except_bind_eq_ok h
    cases h
    exact ⟨r, target, rfl⟩
  | frit make =>
    obtain ⟨⟨r, _⟩, -, h⟩ := except_bind_eq_ok h
    obtain ⟨⟨imm, _⟩, -, h⟩ := except_bind_eq_ok h
    obtain ⟨⟨target, _⟩, -, h⟩ := except_bind_eq_ok h
    cases h
    exact ⟨w, r, imm, target, rfl⟩
  | frat make =>
    obtain ⟨⟨r, _⟩, -, h⟩ := except_bind_eq_ok h
    obtain ⟨⟨addr, _⟩, -, h⟩ := except_bind_eq_ok h
    obtain ⟨⟨target, _⟩, -, h⟩ := except_bind_eq_ok h
    cases h
    exact ⟨w, r, addr, target, rfl⟩

/-- Only the last row of the opcode table builds HALT (R44). -/
theorem opcode_of_formatMakes_halt {op : BitVec 7} {f : Format} (hf : opcodeFormat op = some f)
    (hm : FormatMakes f .halt) : op = 0x7F := by
  unfold opcodeFormat at hf
  split at hf <;> cases hf <;> simp [FormatMakes] at hm ⊢

/-- The first bytes of opcode 0x7F are its two spellings (R42, R43). -/
theorem byte_of_opcodeOf_halt {b : Byte} (h : opcodeOf b = 0x7F) : b = 0x7F ∨ b = 0xFF := by
  revert b; decide

/-- Bytes that decode to HALT begin with 0x7F or 0xFF. -/
theorem byte_of_decode_halt {b : Byte} {bs rest : List Byte} (h : decode (b :: bs) = .ok (.halt, rest)) :
    b = 0x7F ∨ b = 0xFF := by
  rw [decode] at h
  cases hf : opcodeFormat (opcodeOf b) with
  | none => simp only [hf, reduceCtorEq] at h
  | some f =>
    simp only [hf] at h
    exact byte_of_opcodeOf_halt (opcode_of_formatMakes_halt hf (formatMakes_of_decodeOperands h))

/-! ### What an instruction and a step leave of `halted` -/

@[simp] theorem exec_halt (s : State) : exec .halt s = .next { s with halted := true } := rfl

@[simp] theorem aluInto_halted (s : State) (k : AluOp) (w : Width) (r : Reg) (b : Word) :
    (s.aluInto k w r b).halted = s.halted := by
  obtain ⟨v, -, h⟩ | ⟨-, -, h⟩ := aluInto_cases s k w r b
  · rw [h, writeReg_halted]
  · rw [h, raise_halted]

@[simp] theorem storeData_halted (s : State) (a : Word) (w : Width) (v : Word) :
    (s.storeData a w v).halted = s.halted := memWrite_halted s a w v

@[simp] theorem push_halted (s : State) (w : Width) (v : Word) : (s.push w v).halted = s.halted :=
  (frame_push s w v).halted

@[simp] theorem pop_halted (s : State) (w : Width) : (s.pop w).2.halted = s.halted := rfl

@[simp] theorem branch_halted (s : State) (k : Cond) (r : Reg) (v target : Word) :
    (s.branch k r v target).halted = s.halted := by
  rw [branch_eq]

/-- No instruction but HALT changes `halted` (R22): the operations that they are made of leave it, RESET's among
them (R123). -/
theorem exec_halted {i : Instr} {s t : State} (hi : i ≠ .halt) (h : exec i s = .next t) : t.halted = s.halted := by
  cases i with
  | halt => exact absurd rfl hi
  | nop | cmp | cmpa | rtn | jmp | pops | reset => cases h; rfl
  | add | sub | mul | div | addc | subc | mulc | divc | adda | suba | mula | diva =>
    cases h
    exact aluInto_halted _ _ _ _ _
  | inc | dec | uxt | ldr | ldc | ldm => cases h; exact writeReg_halted _ _ _
  | incm | decm => cases h; exact storeData_halted _ _ _ _
  | jsr => cases h; exact push_halted s .word s.pc
  | push | pushs => cases h; exact push_halted s .word _
  | pop w r => cases h; exact writeReg_halted (s.pop w).2 r _
  | popm w addr => cases h; exact storeData_halted (s.pop w).2 addr w _
  | jrz => cases h; split <;> rfl
  | jre | jrn | jrg | jrge | jrl | jrle | jrem | jrnm | jrgm | jrgem | jrlm | jrlem =>
    cases h
    exact branch_halted _ _ _ _ _

/-- R124: no instruction clears `halted`. -/
theorem exec_keeps_halted {i : Instr} {s t : State} (h : exec i s = .next t) (hs : s.halted = true) :
    t.halted = true := by
  by_cases hi : i = .halt
  · subst hi
    cases h
    rfl
  · exact (exec_halted hi h).trans hs

/-- What a step can do: nothing, since the core is stopped; take the fault of its fetch; or run what the bytes at `pc`
decode to. -/
theorem step_cases {s t : State} (h : step s = .next t) :
    (s.running = false ∧ t = s) ∨
    (s.running = true ∧ ∃ e, decode (s.bytesAt s.pc 6) = .error e ∧ t = s.faultedAfter (bytesFetchedAt e)) ∨
    (s.running = true ∧ ∃ i rest, decode (s.bytesAt s.pc 6) = .ok (i, rest) ∧
      exec i (s.fetched i.fetchedBytes) = .next t) := by
  cases hr : s.running with
  | false =>
    cases (step_of_not_running hr).symm.trans h
    exact .inl ⟨rfl, rfl⟩
  | true =>
    cases hd : decode (s.bytesAt s.pc 6) with
    | error e =>
      cases (step_of_decode_error hr hd).symm.trans h
      exact .inr (.inl ⟨rfl, e, rfl, rfl⟩)
    | ok d => exact .inr (.inr ⟨rfl, d.1, d.2, rfl, (step_of_decode_ok hr hd).symm.trans h⟩)

/-- A step that leaves `halted` set where it was not set ran HALT. -/
theorem halt_of_step_sets_halted {s t : State} (h : step s = .next t) (hs : s.halted = false)
    (ht : t.halted = true) : ∃ rest, decode (s.bytesAt s.pc 6) = .ok (.halt, rest) := by
  have changed : t.halted ≠ s.halted := by rw [hs, ht]; decide
  obtain ⟨-, rfl⟩ | ⟨-, e, -, rfl⟩ | ⟨-, i, rest, hd, hx⟩ := step_cases h
  case inl => exact absurd rfl changed
  case inr.inl => exact absurd rfl changed
  case inr.inr =>
    by_cases hi : i = .halt
    · exact ⟨rest, hi ▸ hd⟩
    · exact absurd (exec_halted hi hx) changed

/-! ### Runs that end -/

theorem running_of_halted {s : State} (h : s.halted = true) : s.running = false := by simp [State.running, h]

/-- Where the loop condition is false, the loop of R68 leaves the state as it is. -/
theorem runFor_of_not_running {s : State} (n : Nat) (h : s.running = false) : runFor n s = s := by
  cases n with
  | zero => rfl
  | succ n => simp only [runFor, h]

/-- Where it is true, the loop takes a step first. -/
theorem runFor_succ_of_step {s t : State} (n : Nat) (hr : s.running = true) (h : step s = .next t) :
    runFor (n + 1) s = runFor n t := by
  simp only [runFor, hr, h]

/-- R68: a run of a core that is stopped whatever its budget returns the budget. -/
theorem runBudget_of_not_running {s : State} {budget : Int} (h : (s.startRun budget).running = false) :
    runBudget budget s = s.startRun budget := runFor_of_not_running budget.toNat h

/-- A run of a core that has its budget loaded ends with the first step, where that step stops the core. -/
theorem runBudget_of_stopping_step {s t : State} (hr : s.running = true) (h : step s = .next t)
    (ht : t.running = false) : runBudget s.cyc s = t := by
  obtain ⟨n, hn⟩ : ∃ n, s.cyc.toNat = n + 1 :=
    Nat.exists_eq_succ_of_ne_zero (by have := ((running_iff s).1 hr).1; omega)
  calc runBudget s.cyc s = runFor (n + 1) s := congrArg (runFor · s) hn
    _ = runFor n t := runFor_succ_of_step n hr h
    _ = t := runFor_of_not_running n ht

/-- R124: 0x7F is of format F0, so that both spellings run HALT after one byte is fetched and charged. -/
theorem ruleF0_halt : RuleF0 0x7F .halt := ruleF0_of_format (by decide) rfl

/-- R124: a run that meets HALT ends there, with `pc` at the address after it and the remaining budget returned. -/
theorem runBudget_of_starts_halt {s : State} {w : Width} (h : s.Starts [opByte w 0x7F]) :
    runBudget s.cyc s = { s with halted := true, pc := s.pc + 1, cyc := s.cyc - 1 } := by
  have hstep := (ruleF0_halt s w h).trans (exec_halt (s.fetched 1))
  exact runBudget_of_stopping_step h.1 hstep (running_of_halted rfl)

/-- Settles O28, each part by its lemma: `runBudget_of_starts_halt` for the end of the run, `running_of_halted` for the
suppressed ones, `exec_keeps_halted`, and `halt_of_step_sets_halted` for the last opcode. -/
theorem haltSetsHalted : Obligations.HaltSetsHalted := by
  refine ⟨ruleF0_halt, exec_halt, fun s w h => runBudget_of_starts_halt h, fun budget s hs => ?suppressed,
    fun i s t h hs => exec_keeps_halted h hs, fun s => rfl, fun s t h hs ht => ?lastOpcode⟩
  case suppressed => exact runBudget_of_not_running (running_of_halted hs)
  case lastOpcode =>
    obtain ⟨rest, hd⟩ := halt_of_step_sets_halted h hs ht
    exact byte_of_decode_halt hd

end Sys2Proof.Machine

/-! Decoding and encoding (spec/30_encoding.md R42 to R50): one lemma per format for each direction, and the rows of the
opcode table that say which format spells an instruction. -/

namespace Sys2Proof.Machine

/-! ### Decoding what was encoded -/

@[simp] theorem takeReg_byte_cons (n : Nat) (r : Reg) (rest : List Byte) :
    takeReg n (r.byte :: rest) = .ok (r, rest) := by
  simp [takeReg]

@[simp] theorem takeWord_wordBytes (v : Word) (rest : List Byte) :
    takeWord (wordBytes v ++ rest) = .ok (v, rest) := by
  simp [wordBytes]

/-- An immediate that fits its form is read back (R49). -/
theorem takeImm_immBytes {w : Width} {imm : Word} (h : immFits w imm = true) (rest : List Byte) :
    takeImm w (immBytes w imm ++ rest) = .ok (imm, rest) := by
  cases w with
  | word => exact takeWord_wordBytes imm rest
  | byte => simp [immBytes, zext16_loByte_of_lt (of_decide_eq_true h)]

/-- Where the first byte spells an opcode of the table, the operands of its format follow. -/
theorem decode_opByte {w : Width} {code : Byte} {f : Format} (hc : code.toNat < 128)
    (hf : opcodeFormat (opcodeOf code) = some f) (bs : List Byte) :
    decode (opByte w code :: bs) = decodeOperands w f bs := by
  simp only [decode, opcodeOf_opByte, hf, widthOf_opByte hc]

section
variable {code : Byte} (hc : code.toNat < 128)
include hc

theorem decode_f0 {make : Instr} (hf : opcodeFormat (opcodeOf code) = some (.f0 make)) (rest : List Byte) :
    decode ([code] ++ rest) = .ok (make, rest) :=
  decode_opByte (w := .word) hc hf rest

theorem decode_fr {make : Width → Reg → Instr} (hf : opcodeFormat (opcodeOf code) = some (.fr make)) (w : Width)
    (r : Reg) (rest : List Byte) : decode ([opByte w code, r.byte] ++ rest) = .ok (make w r, rest) := by
  simp [decode_opByte hc hf, decodeOperands]

theorem decode_bytesRR {make : Reg → Reg → Instr} (hf : opcodeFormat (opcodeOf code) = some (.frr make))
    (reg1 reg2 : Reg) (rest : List Byte) :
    decode (bytesRR code reg1 reg2 ++ rest) = .ok (make reg1 reg2, rest) := by
  have := decode_opByte (w := .word) hc hf (reg1.byte :: reg2.byte :: rest)
  simpa [bytesRR, decodeOperands] using this

theorem decode_bytesRI {make : Width → Reg → Word → Instr} (hf : opcodeFormat (opcodeOf code) = some (.fri make))
    {w : Width} {imm : Word} (hi : immFits w imm = true) (r : Reg) (rest : List Byte) :
    decode (bytesRI code w r imm ++ rest) = .ok (make w r imm, rest) := by
  simp [bytesRI, decode_opByte hc hf, decodeOperands, takeImm_immBytes hi]

theorem decode_bytesRA {make : Width → Reg → Word → Instr} (hf : opcodeFormat (opcodeOf code) = some (.fra make))
    (w : Width) (r : Reg) (addr : Word) (rest : List Byte) :
    decode (bytesRA code w r addr ++ rest) = .ok (make w r addr, rest) := by
  simp [bytesRA, decode_opByte hc hf, decodeOperands]

theorem decode_bytesA {make : Width → Word → Instr} (hf : opcodeFormat (opcodeOf code) = some (.fa make))
    (w : Width) (addr : Word) (rest : List Byte) :
    decode (bytesA code w addr ++ rest) = .ok (make w addr, rest) := by
  simp [bytesA, decode_opByte hc hf, decodeOperands]

theorem decode_ft {make : Word → Instr} (hf : opcodeFormat (opcodeOf code) = some (.ft make)) (target : Word)
    (rest : List Byte) : decode (code :: wordBytes target ++ rest) = .ok (make target, rest) := by
  have := decode_opByte (w := .word) hc hf (wordBytes target ++ rest)
  simpa [decodeOperands] using this

theorem decode_frt {make : Reg → Word → Instr} (hf : opcodeFormat (opcodeOf code) = some (.frt make)) (r : Reg)
    (target : Word) (rest : List Byte) :
    decode (code :: r.byte :: wordBytes target ++ rest) = .ok (make r target, rest) := by
  have := decode_opByte (w := .word) hc hf (r.byte :: (wordBytes target ++ rest))
  simpa [decodeOperands] using this

theorem decode_bytesRIT {make : Width → Reg → Word → Word → Instr}
    (hf : opcodeFormat (opcodeOf code) = some (.frit make)) {w : Width} {imm : Word} (hi : immFits w imm = true)
    (r : Reg) (target : Word) (rest : List Byte) :
    decode (bytesRIT code w r imm target ++ rest) = .ok (make w r imm target, rest) := by
  simp [bytesRIT, decode_opByte hc hf, decodeOperands, takeImm_immBytes hi]

theorem decode_bytesRAT {make : Width → Reg → Word → Word → Instr}
    (hf : opcodeFormat (opcodeOf code) = some (.frat make)) (w : Width) (r : Reg) (addr target : Word)
    (rest : List Byte) :
    decode (bytesRAT code w r addr target ++ rest) = .ok (make w r addr target, rest) := by
  simp [bytesRAT, decode_opByte hc hf, decodeOperands]

end

/-- Settles O36: each instruction's encoding is that of its format, with the code that the opcode table gives to that
instruction. -/
theorem decodeInvertsEncode : Obligations.DecodeInvertsEncode := by
  intro i rest hi
  cases i with
  | nop | rtn | pushs | pops | reset | halt => exact decode_f0 (by decide) rfl rest
  | inc r => exact decode_fr (code := 0x10) (by decide) rfl .word r rest
  | dec r => exact decode_fr (code := 0x12) (by decide) rfl .word r rest
  | uxt r => exact decode_fr (code := 0x20) (by decide) rfl .word r rest
  | push r => exact decode_fr (code := 0x60) (by decide) rfl .word r rest
  | pop w r => exact decode_fr (by decide) rfl w r rest
  | add reg1 reg2 | sub reg1 reg2 | mul reg1 reg2 | div reg1 reg2 | cmp reg1 reg2 | ldr reg1 reg2 =>
    exact decode_bytesRR (by decide) rfl reg1 reg2 rest
  | addc w r imm | subc w r imm | mulc w r imm | divc w r imm | ldc w r imm =>
    exact decode_bytesRI (by decide) rfl hi r rest
  | adda w r addr | suba w r addr | mula w r addr | diva w r addr | cmpa w r addr | ldm w r addr =>
    exact decode_bytesRA (by decide) rfl w r addr rest
  | incm w addr | decm w addr | popm w addr => exact decode_bytesA (by decide) rfl w addr rest
  | jsr target | jmp target => exact decode_ft (by decide) rfl target rest
  | jrz r target => exact decode_frt (by decide) rfl r target rest
  | jre w r imm target | jrn w r imm target | jrg w r imm target | jrge w r imm target | jrl w r imm target
  | jrle w r imm target => exact decode_bytesRIT (by decide) rfl hi r target rest
  | jrem w r addr target | jrnm w r addr target | jrgm w r addr target | jrgem w r addr target
  | jrlm w r addr target | jrlem w r addr target =>
    exact decode_bytesRAT (by decide) rfl w r addr target rest

/-! ### Encoding what was decoded -/

theorem takeReg_eq_ok {n : Nat} {bs rest : List Byte} {r : Reg} (h : takeReg n bs = .ok (r, rest)) :
    bs = r.byte :: rest := by
  cases bs with
  | nil => cases h
  | cons b bs =>
    cases hb : Reg.ofByte b with
    | none => simp [takeReg, hb] at h
    | some q =>
      simp only [takeReg, hb, Except.ok.injEq, Prod.mk.injEq] at h
      obtain ⟨rfl, rfl⟩ := h
      rw [reg_ofByte_eq_some.1 hb]

theorem takeWord_eq_ok {bs rest : List Byte} {v : Word} (h : takeWord bs = .ok (v, rest)) :
    bs = wordBytes v ++ rest := by
  match bs, h with
  | b0 :: b1 :: bs, h =>
    cases h
    simp [wordBytes]

/-- An immediate that is read fits its form and is spelled by the bytes read (R49). -/
theorem takeImm_eq_ok {w : Width} {bs rest : List Byte} {v : Word} (h : takeImm w bs = .ok (v, rest)) :
    immFits w v = true ∧ bs = immBytes w v ++ rest := by
  cases w with
  | word => exact ⟨rfl, takeWord_eq_ok h⟩
  | byte =>
    cases bs with
    | nil => cases h
    | cons b bs =>
      cases h
      exact ⟨decide_eq_true (by rw [zext16_toNat]; exact b.isLt), by simp [immBytes]⟩

/-- The instruction is well formed and its encoding is the opcode byte, which carries W where the instruction has a
width choice, followed by `tail`. -/
structure Spells (code : Byte) (w : Width) (i : Instr) (tail : List Byte) : Prop where
  /-- the instruction has an encoding -/
  wf : i.wf = true
  /-- which is this one -/
  encode_eq : encode i = (if i.hasWidthChoice then opByte w code else code) :: tail

/-- The instructions that a format builds are spelled by the code and their operands in order (R47). -/
def FormatSpells (code : Byte) (f : Format) : Prop :=
  match f with
  | .f0 make => ∀ w, Spells code w make []
  | .fr make => ∀ w r, Spells code w (make w r) [r.byte]
  | .frr make => ∀ w reg1 reg2, Spells code w (make reg1 reg2) [reg1.byte, reg2.byte]
  | .fri make => ∀ w r imm, immFits w imm = true → Spells code w (make w r imm) (r.byte :: immBytes w imm)
  | .fra make => ∀ w r addr, Spells code w (make w r addr) (r.byte :: wordBytes addr)
  | .fa make => ∀ w addr, Spells code w (make w addr) (wordBytes addr)
  | .ft make => ∀ w target, Spells code w (make target) (wordBytes target)
  | .frt make => ∀ w r target, Spells code w (make r target) (r.byte :: wordBytes target)
  | .frit make => ∀ w r imm target, immFits w imm = true →
      Spells code w (make w r imm target) (r.byte :: (immBytes w imm ++ wordBytes target))
  | .frat make => ∀ w r addr target,
      Spells code w (make w r addr target) (r.byte :: (wordBytes addr ++ wordBytes target))

/-- Every row of the opcode table spells its instructions by its own code. -/
theorem formatSpells_of_opcodeFormat {op : BitVec 7} {f : Format} (h : opcodeFormat op = some f) :
    FormatSpells (BitVec.ofNat 8 op.toNat) f := by
  unfold opcodeFormat at h
  split at h <;> cases h <;> simp only [FormatSpells] <;> intros <;> exact ⟨by simp [Instr.wf, *], rfl⟩

/-- What the operands of a format decode to is spelled by the bytes read. -/
theorem spells_of_decodeOperands {code : Byte} {w : Width} {f : Format} {bs rest : List Byte} {i : Instr}
    (hf : FormatSpells code f) (h : decodeOperands w f bs = .ok (i, rest)) :
    ∃ tail, Spells code w i tail ∧ bs = tail ++ rest := by
  unfold decodeOperands at h
  cases f with
  | f0 make => cases h; exact ⟨[], hf w, rfl⟩
  | fr make =>
    obtain ⟨⟨r, _⟩, hr, h⟩ := except_bind_eq_ok h
    cases h
    exact ⟨_, hf w r, takeReg_eq_ok hr⟩
  | frr make =>
    obtain ⟨⟨reg1, _⟩, h1, h⟩ := except_bind_eq_ok h
    obtain ⟨⟨reg2, _⟩, h2, h⟩ := except_bind_eq_ok h
    cases h
    exact ⟨_, hf w reg1 reg2, by rw [takeReg_eq_ok h1, takeReg_eq_ok h2]; rfl⟩
  | fri make =>
    obtain ⟨⟨r, _⟩, hr, h⟩ := except_bind_eq_ok h
    obtain ⟨⟨imm, _⟩, himm, h⟩ := except_bind_eq_ok h
    cases h
    obtain ⟨hfit, hbs⟩ := takeImm_eq_ok himm
    exact ⟨_, hf w r imm hfit, by rw [takeReg_eq_ok hr, hbs]; rfl⟩
  | fra make =>
    obtain ⟨⟨r, _⟩, hr, h⟩ := except_bind_eq_ok h
    obtain ⟨⟨addr, _⟩, ha, h⟩ := except_bind_eq_ok h
    cases h
    exact ⟨_, hf w r addr, by rw [takeReg_eq_ok hr, takeWord_eq_ok ha]; rfl⟩
  | fa make =>
    obtain ⟨⟨addr, _⟩, ha, h⟩ := except_bind_eq_ok h
    cases h
    exact ⟨_, hf w addr, takeWord_eq_ok ha⟩
  | ft make =>
    obtain ⟨⟨target, _⟩, ht, h⟩ := except_bind_eq_ok h
    cases h
    exact ⟨_, hf w target, takeWord_eq_ok ht⟩
  | frt make =>
    obtain ⟨⟨r, _⟩, hr, h⟩ := except_bind_eq_ok h
    obtain ⟨⟨target, _⟩, ht, h⟩ := except_bind_eq_ok h
    cases h
    exact ⟨_, hf w r target, by rw [takeReg_eq_ok hr, takeWord_eq_ok ht]; rfl⟩
  | frit make =>
    obtain ⟨⟨r, _⟩, hr, h⟩ := except_bind_eq_ok h
    obtain ⟨⟨imm, _⟩, himm, h⟩ := except_bind_eq_ok h
    obtain ⟨⟨target, _⟩, ht, h⟩ := except_bind_eq_ok h
    cases h
    obtain ⟨hfit, hbs⟩ := takeImm_eq_ok himm
    exact ⟨_, hf w r imm target hfit, by
      rw [takeReg_eq_ok hr, hbs, takeWord_eq_ok ht, List.cons_append, List.append_assoc]⟩
  | frat make =>
    obtain ⟨⟨r, _⟩, hr, h⟩ := except_bind_eq_ok h
    obtain ⟨⟨addr, _⟩, ha, h⟩ := except_bind_eq_ok h
    obtain ⟨⟨target, _⟩, ht, h⟩ := except_bind_eq_ok h
    cases h
    exact ⟨_, hf w r addr target, by
      rw [takeReg_eq_ok hr, takeWord_eq_ok ha, takeWord_eq_ok ht, List.cons_append, List.append_assoc]⟩

/-- The code of a first byte: its opcode with bit 7 clear. -/
theorem ofNat_opcodeOf (b : Byte) : BitVec.ofNat 8 (opcodeOf b).toNat = BitVec.ofNat 8 (b.toNat % 128) := by
  revert b; decide

theorem opcodeOf_ofNat_opcodeOf (b : Byte) : opcodeOf (BitVec.ofNat 8 (opcodeOf b).toNat) = opcodeOf b := by
  revert b; decide

/-- Bytes that decode: a first byte of the instruction's opcode, and the operands that the instruction is spelled
with. -/
theorem spells_of_decode {b : Byte} {bs rest : List Byte} {i : Instr} (h : decode (b :: bs) = .ok (i, rest)) :
    ∃ tail, Spells (BitVec.ofNat 8 (opcodeOf b).toNat) (widthOf b) i tail ∧ bs = tail ++ rest := by
  rw [decode] at h
  cases hf : opcodeFormat (opcodeOf b) with
  | none => simp only [hf, reduceCtorEq] at h
  | some f =>
    simp only [hf] at h
    exact spells_of_decodeOperands (formatSpells_of_opcodeFormat hf) h

/-- Settles O37: the operands are those of `spells_of_decode`, and the first byte is the encoder's but for an ignored
W. -/
theorem decodedBytesAreTheEncoding : Obligations.DecodedBytesAreTheEncoding := by
  intro bs rest i h
  cases bs with
  | nil => cases h
  | cons b bs =>
    obtain ⟨tail, ⟨hwf, henc⟩, rfl⟩ := spells_of_decode h
    refine ⟨hwf, _, b, tail, henc, rfl, ?opcode, fun hw => ?width⟩
    case opcode =>
      split
      · rw [opcodeOf_opByte, opcodeOf_ofNat_opcodeOf]
      · rw [opcodeOf_ofNat_opcodeOf]
    case width => rw [if_pos hw, ofNat_opcodeOf, opByte_widthOf]

/-- Settles O35: each of the words is closed, so that the decoder runs on it. -/
theorem someEncodingsDecode : Obligations.SomeEncodingsDecode := by
  unfold Obligations.SomeEncodingsDecode
  decide

end Sys2Proof.Machine

/-! Where the bytes at `pc` do not decode (spec/30_encoding.md R51, spec/60_exceptions.md R127, R128), and what every
step answers (R67, R136, R141). -/

namespace Sys2Proof.Machine

/-! ### Which bytes do not decode -/

/-- A register byte that is not read is above 7. -/
theorem takeReg_cons_eq_error {n : Nat} {b : Byte} {rest : List Byte} {e : DecodeError}
    (h : takeReg n (b :: rest) = .error e) : e = .illegalRegister n ∧ 7 < b.toNat := by
  cases hb : Reg.ofByte b with
  | some r => simp [takeReg, hb] at h
  | none =>
    simp only [takeReg, hb, Except.error.injEq] at h
    exact ⟨h.symm, reg_ofByte_eq_none.1 hb⟩

/-- A register byte that is read leaves the bytes after it. -/
theorem takeReg_cons_eq_ok {n : Nat} {b : Byte} {bs rest : List Byte} {r : Reg}
    (h : takeReg n (b :: bs) = .ok (r, rest)) : rest = bs :=
  (List.cons.inj (takeReg_eq_ok h)).2.symm

/-- A computation that fails, failed in its first part or in what follows it. -/
theorem except_bind_eq_error {ε α β : Type} {x : Except ε α} {k : α → Except ε β} {e : ε}
    (h : (x >>= k) = .error e) : x = .error e ∨ ∃ a, x = .ok a ∧ k a = .error e := by
  cases x with
  | ok a => exact .inr ⟨a, rfl, h⟩
  | error e' => cases h; exact .inl rfl

/-- Five bytes after the first always suffice, so that operands fail to decode at a register byte alone. -/
theorem decodeOperands_eq_error {w : Width} {f : Format} {b1 b2 b3 b4 b5 : Byte} {e : DecodeError}
    (h : decodeOperands w f [b1, b2, b3, b4, b5] = .error e) :
    (e = .illegalRegister 1 ∧ 7 < b1.toNat) ∨ (e = .illegalRegister 2 ∧ 7 < b2.toNat) := by
  unfold decodeOperands at h
  cases f with
  | f0 make | fa make | ft make => cases h
  | fr make | fra make | frt make | frat make =>
    obtain h | ⟨⟨r, _⟩, hr, h⟩ := except_bind_eq_error h
    · exact .inl (takeReg_cons_eq_error h)
    · cases takeReg_cons_eq_ok hr
      cases h
  | fri make | frit make =>
    obtain h | ⟨⟨r, _⟩, hr, h⟩ := except_bind_eq_error h
    · exact .inl (takeReg_cons_eq_error h)
    · cases takeReg_cons_eq_ok hr
      cases w <;> cases h
  | frr make =>
    obtain h | ⟨⟨r, _⟩, hr, h⟩ := except_bind_eq_error h
    · exact .inl (takeReg_cons_eq_error h)
    · cases takeReg_cons_eq_ok hr
      obtain h | ⟨⟨q, _⟩, hq, h⟩ := except_bind_eq_error h
      · exact .inr (takeReg_cons_eq_error h)
      · cases h

/-- The bytes at `pc` fail to decode at an opcode outside the table, or at a register byte above 7. -/
theorem decode_bytesAt_eq_error {s : State} {e : DecodeError} (h : decode (s.bytesAt s.pc 6) = .error e) :
    (opcodeFormat (opcodeOf (s.readByte s.pc)) = none ∧ e = .illegalOpcode (opcodeOf (s.readByte s.pc))) ∨
    ∃ n, e = .illegalRegister n ∧ (n = 1 ∨ n = 2) ∧ 7 < (s.readByte (s.pc + BitVec.ofNat 16 n)).toNat := by
  rw [show s.bytesAt s.pc 6 = s.readByte s.pc :: s.bytesAt (s.pc + 1) 5 from rfl, decode] at h
  cases hf : opcodeFormat (opcodeOf (s.readByte s.pc)) with
  | none =>
    simp only [hf, Except.error.injEq] at h
    exact .inl ⟨rfl, h.symm⟩
  | some f =>
    simp only [hf, State.bytesAt] at h
    obtain ⟨he, hb⟩ | ⟨he, hb⟩ := decodeOperands_eq_error h
    · exact .inr ⟨1, he, .inl rfl, hb⟩
    · exact .inr ⟨2, he, .inr rfl, by rwa [BitVec.add_assoc] at hb⟩

/-- Where the first byte spells no opcode of the table, the bytes at `pc` fail to decode there. -/
theorem decode_bytesAt_of_illegal {s : State} (h : opcodeFormat (opcodeOf (s.readByte s.pc)) = none) :
    decode (s.bytesAt s.pc 6) = .error (.illegalOpcode (opcodeOf (s.readByte s.pc))) := by
  simp only [State.bytesAt, decode, h]

/-- The 82 values that are not in the opcode table (R51). -/
def undefinedOpcodes : List (BitVec 7) :=
  [0x0D, 0x14, 0x15, 0x16, 0x17, 0x18, 0x19, 0x1A, 0x1B, 0x1C, 0x1D, 0x1E, 0x1F, 0x21, 0x22, 0x23, 0x24, 0x25,
    0x26, 0x27, 0x28, 0x29, 0x2A, 0x2B, 0x2C, 0x2D, 0x2E, 0x2F, 0x33, 0x34, 0x35, 0x36, 0x37, 0x38, 0x39, 0x3A,
    0x3B, 0x3C, 0x3D, 0x3E, 0x3F, 0x50, 0x51, 0x52, 0x53, 0x54, 0x55, 0x56, 0x57, 0x58, 0x59, 0x5A, 0x5B, 0x5C,
    0x5D, 0x5E, 0x5F, 0x61, 0x62, 0x67, 0x68, 0x69, 0x6A, 0x6B, 0x6C, 0x6D, 0x6E, 0x6F, 0x70, 0x71, 0x72, 0x73,
    0x74, 0x75, 0x76, 0x77, 0x78, 0x79, 0x7A, 0x7B, 0x7C, 0x7D]

/-- They are the values for which the table has no row. -/
theorem mem_undefinedOpcodes_iff (op : BitVec 7) : op ∈ undefinedOpcodes ↔ opcodeFormat op = none := by
  rw [← Option.isNone_iff_eq_none]
  revert op
  decide

/-- Settles O39: an opcode is undefined where the table has no row for it, and then the decoder rejects it. -/
theorem undefinedOpcodesFault : Obligations.UndefinedOpcodesFault := by
  refine fun s hr => ⟨(mem_undefinedOpcodes_iff _).trans ⟨fun h => ⟨_, decode_bytesAt_of_illegal h⟩, ?defined⟩,
    fun op hd => step_of_decode_error hr hd⟩
  case defined =>
    rintro ⟨op, hd⟩
    obtain ⟨h, -⟩ | ⟨n, he, -⟩ := decode_bytesAt_eq_error hd
    · exact h
    · cases he

/-- Settles O40: `decode_bytesAt_eq_error` says where the bytes fail to decode, `step_of_decode_error` what a step then
does. -/
theorem badRegisterBytesFault : Obligations.BadRegisterBytesFault := by
  intro s e hr hd
  obtain ⟨-, he⟩ | ⟨n, rfl, hn, hb⟩ := decode_bytesAt_eq_error hd
  · exact .inl ⟨_, he⟩
  · exact .inr ⟨n, rfl, hn, hb, step_of_decode_error hr hd⟩

/-! ### What a step answers -/

/-- What decodes at `pc` is well formed. -/
theorem wf_of_decode_bytesAt {s : State} {i : Instr} {rest : List Byte}
    (h : decode (s.bytesAt s.pc 6) = .ok (i, rest)) : i.wf = true := by
  obtain ⟨tail, hs, -⟩ := spells_of_decode h
  exact hs.wf

/-- Settles O38 by `step_of_decode_ok`. -/
theorem stepRunsTheDecodedInstruction : Obligations.StepRunsTheDecodedInstruction :=
  fun _ _ _ hr hd => ⟨wf_of_decode_bytesAt hd, step_of_decode_ok hr hd⟩

/-- Every instruction has a meaning in every state. -/
theorem exec_answers_next (i : Instr) (s : State) : ∃ t, exec i s = .next t := by
  cases i <;> exact ⟨_, rfl⟩

theorem step_answers_next (s : State) : ∃ t, step s = .next t := by
  cases hr : s.running with
  | false => exact ⟨s, step_of_not_running hr⟩
  | true =>
    cases hd : decode (s.bytesAt s.pc 6) with
    | error e => exact ⟨_, step_of_decode_error hr hd⟩
    | ok d =>
      obtain ⟨t, ht⟩ := exec_answers_next d.1 (s.fetched d.1.fetchedBytes)
      exact ⟨t, (step_of_decode_ok hr hd).trans ht⟩

/-- Settles O41: a stopped core, a fault of the fetch and an instruction each answer a next state. -/
theorem stepAlwaysAnswersNext : Obligations.StepAlwaysAnswersNext := step_answers_next

/-- The stopped conditions of R141 are those in which the loop condition is false. -/
theorem running_eq_false_iff (s : State) : s.running = false ↔ s.cyc ≤ 0 ∨ s.halted = true ∨ s.fault ≠ none := by
  rw [← Bool.not_eq_true, running_iff, not_and_or, not_and_or, Int.not_lt, Bool.not_eq_false]

/-- Settles O42: in each stopped condition the loop condition is false. -/
theorem stoppedCoreStaysAsItIs : Obligations.StoppedCoreStaysAsItIs :=
  fun s h => step_of_not_running ((running_eq_false_iff s).2 h)

end Sys2Proof.Machine

/-! The primitives: memory words (spec/20_memory.md R29 to R34), the stack (spec/40_execution_loop.md R63 to R66), the
status byte (spec/10_state.md R19) and the ALU (spec/41_arithmetic.md R73). -/

namespace Sys2Proof.Machine

/-! ### Memory and stack -/

/-- Settles O30, by the reads after a byte and after a word write, and the value of a word of two bytes. -/
theorem memoryIsLittleEndian : Obligations.MemoryIsLittleEndian := fun s a b v =>
  ⟨readByte_memWrite_byte s a b v, readByte_memWrite_word s a b v, zext16_toNat _, wordOf_toNat _ _⟩

/-- A word that was written is read back whole (R34). -/
theorem memRead_memWrite_word (s : State) (a v : Word) : (s.memWrite a .word v).memRead a .word = v :=
  BitVec.eq_of_toNat_eq ((memRead_memWrite s a .word v).trans (part_word v))

/-- Settles O31, by `memRead_memWrite`. -/
theorem memoryRoundTrip : Obligations.MemoryRoundTrip := fun s a v =>
  ⟨memRead_memWrite_word s a v, memRead_memWrite s a .byte v⟩

theorem sub_two_add_one (a : Word) : a - 2 + 1 = a - 1 := by bv_omega

theorem sub_two_add_two (a : Word) : a - 2 + 2 = a := by bv_omega

/-- A push of a word: its two bytes stand at the lowered `sp` and at the address after it, modulo 65536 (R65). -/
theorem push_word (s : State) (v : Word) :
    s.push .word v = { s with
      sp := s.sp - 2
      cyc := s.cyc - 2
      mem := (s.mem.write (s.sp - 2).toNat (loByte v)).write (s.sp - 1).toNat (hiByte v) } := by
  rw [← sub_two_add_one s.sp]
  rfl

/-- What a pop reads after a push of the same width, with the whole value for a word and its low byte for a byte. -/
theorem pop_push_toNat (s : State) (w : Width) (v : Word) : ((s.push w v).pop w).1.toNat = w.part v := by
  rw [pop_eq, push_memRead, push_eq]
  exact memRead_memWrite s (s.sp - BitVec.ofNat 16 w.bytes) w v

/-- A pop after a push of the same width restores `sp`. -/
theorem pop_push_sp (s : State) (w : Width) (v : Word) : ((s.push w v).pop w).2.sp = s.sp := by
  rw [pop_eq, push_eq]
  exact BitVec.sub_add_cancel s.sp _

/-- Settles O32: `push_word` and `pop_word` spell the operations out, and a pop inverts a push by `pop_push_toNat` and
`pop_push_sp`. -/
theorem stackPrimitives : Obligations.StackPrimitives := fun s v =>
  ⟨rfl, push_word s v, rfl, pop_word s, BitVec.eq_of_toNat_eq ((pop_push_toNat s .word v).trans (part_word v)),
    pop_push_sp s .word v, pop_push_toNat s .byte v, pop_push_sp s .byte v⟩

/-! ### The status byte -/

/-- The byte of one flag has it at its position and zero elsewhere. -/
theorem flagBit_getLsbD (p q : Fin 8) (f : Bool) : (flagBit p f).getLsbD q = (decide (p = q) && f) := by
  revert p q f; decide

/-- A bit of the packed byte: the flag, if any, that stands at its position (R19). -/
theorem pack_getLsbD (l : Config.StatusLayout) (f : Flags) (q : Fin 8) :
    (f.pack l).getLsbD q =
      (decide (l.n = q) && f.n || decide (l.o = q) && f.o || decide (l.b = q) && f.b || decide (l.d = q) && f.d ||
        decide (l.i = q) && f.i || decide (l.z = q) && f.z || decide (l.c = q) && f.c) := by
  simp only [Flags.pack, BitVec.getLsbD_or, flagBit_getLsbD]

/-- R19: unpacking a packed byte gives the flags back, since their positions differ. -/
theorem unpack_pack {l : Config.StatusLayout} (hl : l.Injective) (f : Flags) : Flags.unpack l (f.pack l) = f := by
  simp only [Config.StatusLayout.Injective, Config.StatusLayout.positions, List.nodup_cons, List.mem_cons,
    List.not_mem_nil, or_false, not_or] at hl
  cases f
  simp only [Flags.unpack, pack_getLsbD, Flags.mk.injEq]
  grind

/-- A bit that is no flag's position is 0 (R19). -/
theorem pack_getLsbD_unused {l : Config.StatusLayout} (f : Flags) {p : Fin 8} (hp : p ∉ l.positions) :
    (f.pack l).getLsbD p = false := by
  simp only [Config.StatusLayout.positions, List.mem_cons, List.not_mem_nil, or_false, not_or] at hp
  simp only [pack_getLsbD]
  grind

/-- Settles O33: a flag's bit of the packed byte is what unpacking finds there, which is the flag by `unpack_pack`. -/
theorem statusByteHoldsEachFlagAtItsPosition : Obligations.StatusByteHoldsEachFlagAtItsPosition := by
  refine ⟨rfl, fun l f hl => ?_⟩
  have h := unpack_pack hl f
  exact ⟨congrArg Flags.n h, congrArg Flags.o h, congrArg Flags.b h, congrArg Flags.d h, congrArg Flags.i h,
    congrArg Flags.z h, congrArg Flags.c h, fun p hp => pack_getLsbD_unused f hp, h, fun b => rfl⟩

/-! ### The ALU -/

theorem sum_word (a b : Word) : sum .word a b = a + b := by
  apply BitVec.eq_of_toNat_eq
  rw [sum_toNat, part_word, part_word, BitVec.toNat_add]
  rfl

theorem difference_word (a b : Word) : difference .word a b = a - b := by
  apply BitVec.eq_of_toNat_eq
  rw [difference_toNat, part_word, part_word, BitVec.toNat_sub]
  show (a.toNat + (65536 - b.toNat)) % 65536 = (65536 - b.toNat + a.toNat) % 65536
  omega

/-- A byte that becomes a word keeps its value. -/
theorem setWidth_byte_toNat (x : Byte) : (x.setWidth 16).toNat = x.toNat := by
  have := x.isLt
  rw [BitVec.toNat_setWidth]
  omega

theorem sum_byte (a b : Word) : sum .byte a b = (a.setWidth 8 + b.setWidth 8).setWidth 16 := by
  apply BitVec.eq_of_toNat_eq
  rw [sum_toNat, setWidth_byte_toNat, BitVec.toNat_add, BitVec.toNat_setWidth, BitVec.toNat_setWidth]
  rfl

theorem difference_byte (a b : Word) : difference .byte a b = (a.setWidth 8 - b.setWidth 8).setWidth 16 := by
  apply BitVec.eq_of_toNat_eq
  rw [difference_toNat, setWidth_byte_toNat, BitVec.toNat_sub, BitVec.toNat_setWidth, BitVec.toNat_setWidth, add_comm]
  rfl

/-- The low product of the form. -/
theorem alu_mul_word (a b : Word) : alu .mul .word a b = some (a * b) := by
  simp only [alu, part_word, Option.some.injEq]
  apply BitVec.eq_of_toNat_eq
  rw [BitVec.toNat_mul, BitVec.toNat_ofNat]
  exact Nat.mod_mod _ _

theorem alu_mul_byte (a b : Word) : alu .mul .byte a b = some ((a.setWidth 8 * b.setWidth 8).setWidth 16) := by
  simp only [alu, Option.some.injEq]
  apply BitVec.eq_of_toNat_eq
  rw [setWidth_byte_toNat, BitVec.toNat_mul, BitVec.toNat_setWidth, BitVec.toNat_setWidth, BitVec.toNat_ofNat]
  exact Nat.mod_eq_of_lt (product_lt .byte a b)

/-- The quotient of the form, absent where the divisor's part is 0. -/
theorem alu_div_word (a b : Word) : alu .div .word a b = if b = 0 then none else some (a / b) := by
  have hzero : b.toNat = 0 ↔ b = 0 := by rw [← BitVec.toNat_inj]; rfl
  simp only [alu, part_word, hzero]
  congr 2
  apply BitVec.eq_of_toNat_eq
  rw [BitVec.toNat_udiv, BitVec.toNat_ofNat]
  exact Nat.mod_eq_of_lt ((Nat.div_le_self _ _).trans_lt a.isLt)

theorem alu_div_byte (a b : Word) :
    alu .div .byte a b = if b.setWidth 8 = 0 then none else some ((a.setWidth 8 / b.setWidth 8).setWidth 16) := by
  have hzero : b.toNat % 256 = 0 ↔ b.setWidth 8 = 0 := by rw [← BitVec.toNat_inj, BitVec.toNat_setWidth]; rfl
  simp only [alu, part_byte, hzero]
  congr 2
  apply BitVec.eq_of_toNat_eq
  rw [setWidth_byte_toNat, BitVec.toNat_udiv, BitVec.toNat_setWidth, BitVec.toNat_setWidth, BitVec.toNat_ofNat]
  exact Nat.mod_eq_of_lt (quotient_lt .byte a b)

/-- Settles O34, operation by operation in both forms. -/
theorem aluIsBitVectorArithmetic : Obligations.AluIsBitVectorArithmetic := fun a b =>
  ⟨congrArg some (sum_word a b), congrArg some (difference_word a b), alu_mul_word a b, alu_div_word a b,
    congrArg some (sum_byte a b), congrArg some (difference_byte a b), alu_mul_byte a b, alu_div_byte a b⟩

end Sys2Proof.Machine

/-! The instructions but for NOP, RTN and HALT (spec/41_arithmetic.md to spec/46_system.md): what each answers in the
state after its fetches, with its frame. -/

namespace Sys2Proof.Machine

/-! ### Results of the form's arithmetic -/

theorem sum_toNat_pick (w : Width) (a b : Word) : (sum w a b).toNat = (a.toNat + b.toNat) % w.pick 65536 256 := by
  rw [sum_toNat, ← modulus_eq_pick]
  exact (Nat.add_mod _ _ _).symm

theorem difference_toInt (w : Width) (a b : Word) :
    ((difference w a b).toNat : Int) = (a.toNat - b.toNat : Int) % w.pick 65536 256 := by
  rw [difference_toNat]
  cases w with
  | word =>
    show (((a.toNat % 65536 + (65536 - b.toNat % 65536)) % 65536 : Nat) : Int) =
      (a.toNat - b.toNat : Int) % (65536 : Nat)
    omega
  | byte =>
    show (((a.toNat % 256 + (256 - b.toNat % 256)) % 256 : Nat) : Int) = (a.toNat - b.toNat : Int) % (256 : Nat)
    omega

theorem product_toNat (w : Width) (a b : Word) :
    (BitVec.ofNat 16 (w.part a * w.part b % w.modulus)).toNat = a.toNat * b.toNat % w.pick 65536 256 := by
  rw [BitVec.toNat_ofNat, Nat.mod_eq_of_lt (product_lt w a b), ← modulus_eq_pick]
  exact (Nat.mul_mod _ _ _).symm

theorem quotient_toNat (w : Width) (a b : Word) :
    (BitVec.ofNat 16 (w.part a / w.part b)).toNat = w.part a / w.part b := by
  rw [BitVec.toNat_ofNat, Nat.mod_eq_of_lt (quotient_lt w a b)]

/-! ### ADD, SUB, MUL (R75 to R83) -/

theorem exec_add (reg1 reg2 : Reg) (s : State) :
    exec (.add reg1 reg2) s = .next (s.writeReg reg1 (sum .word (s.readReg reg1) (s.readReg reg2))) := rfl

theorem exec_sub (reg1 reg2 : Reg) (s : State) :
    exec (.sub reg1 reg2) s = .next (s.writeReg reg1 (difference .word (s.readReg reg1) (s.readReg reg2))) := rfl

theorem exec_mul (reg1 reg2 : Reg) (s : State) :
    exec (.mul reg1 reg2) s = .next (s.writeReg reg1 (BitVec.ofNat 16
      (Width.part .word (s.readReg reg1) * Width.part .word (s.readReg reg2) % Width.modulus .word))) := rfl

/-- Settles O2: the three are of format FRR and write `sum`, `difference` and the low product of the word form. -/
theorem registerArithmeticWrapsModulo65536 : Obligations.RegisterArithmeticWrapsModulo65536 := by
  refine ⟨ruleFRR_of_format (by decide) rfl, ruleFRR_of_format (by decide) rfl, ruleFRR_of_format (by decide) rfl,
    fun reg1 reg2 s => ⟨⟨_, exec_add reg1 reg2 s, frame_writeReg s reg1 _, ?add⟩,
      ⟨_, exec_sub reg1 reg2 s, frame_writeReg s reg1 _, ?sub⟩,
      ⟨_, exec_mul reg1 reg2 s, frame_writeReg s reg1 _, ?mul⟩⟩⟩ <;>
    rw [readReg_writeReg_same]
  case add => exact sum_toNat_pick .word _ _
  case sub => exact difference_toInt .word _ _
  case mul => exact product_toNat .word _ _

theorem exec_addc (w : Width) (r : Reg) (imm : Word) (s : State) :
    exec (.addc w r imm) s = .next (s.writeReg r (sum w (s.readReg r) imm)) := rfl

theorem exec_subc (w : Width) (r : Reg) (imm : Word) (s : State) :
    exec (.subc w r imm) s = .next (s.writeReg r (difference w (s.readReg r) imm)) := rfl

theorem exec_mulc (w : Width) (r : Reg) (imm : Word) (s : State) :
    exec (.mulc w r imm) s =
      .next (s.writeReg r (BitVec.ofNat 16 (w.part (s.readReg r) * w.part imm % w.modulus))) := rfl

/-- Settles O3: the three are of format FRI and write the results of their form. -/
theorem immediateArithmeticWrapsAtTheForm : Obligations.ImmediateArithmeticWrapsAtTheForm := by
  refine ⟨ruleFRI_of_format (by decide) rfl, ruleFRI_of_format (by decide) rfl, ruleFRI_of_format (by decide) rfl,
    fun w r imm s => ⟨⟨_, exec_addc w r imm s, frame_writeReg s r _, ?add⟩,
      ⟨_, exec_subc w r imm s, frame_writeReg s r _, ?sub⟩,
      ⟨_, exec_mulc w r imm s, frame_writeReg s r _, ?mul⟩⟩⟩ <;>
    rw [readReg_writeReg_same]
  case add => exact sum_toNat_pick w _ _
  case sub => exact difference_toInt w _ _
  case mul => exact product_toNat w _ _

theorem exec_adda (w : Width) (r : Reg) (addr : Word) (s : State) :
    exec (.adda w r addr) s =
      .next ((s.charge w.bytes).writeReg r (sum w (s.readReg r) (s.memRead addr w))) := rfl

theorem exec_suba (w : Width) (r : Reg) (addr : Word) (s : State) :
    exec (.suba w r addr) s =
      .next ((s.charge w.bytes).writeReg r (difference w (s.readReg r) (s.memRead addr w))) := rfl

theorem exec_mula (w : Width) (r : Reg) (addr : Word) (s : State) :
    exec (.mula w r addr) s = .next ((s.charge w.bytes).writeReg r
      (BitVec.ofNat 16 (w.part (s.readReg r) * w.part (s.memRead addr w) % w.modulus))) := rfl

/-- Settles O4: the three are of format FRA, charge their operand and write the results of their form. -/
theorem memoryArithmeticWrapsAtTheForm : Obligations.MemoryArithmeticWrapsAtTheForm := by
  refine ⟨ruleFRA_of_format (by decide) rfl, ruleFRA_of_format (by decide) rfl, ruleFRA_of_format (by decide) rfl,
    fun w r addr s => ?_⟩
  rw [← bytes_eq_pick]
  refine ⟨⟨_, exec_adda w r addr s, frame_charge_writeReg s _ r _, ?add⟩,
    ⟨_, exec_suba w r addr s, frame_charge_writeReg s _ r _, ?sub⟩,
    ⟨_, exec_mula w r addr s, frame_charge_writeReg s _ r _, ?mul⟩⟩ <;>
    rw [readReg_writeReg_same]
  case add => exact sum_toNat_pick w _ _
  case sub => exact difference_toInt w _ _
  case mul => exact product_toNat w _ _

/-! ### DIV (R84 to R86) -/

theorem exec_div (reg1 reg2 : Reg) (s : State) :
    exec (.div reg1 reg2) s = .next (s.aluInto .div .word reg1 (s.readReg reg2)) := rfl

theorem exec_divc (w : Width) (r : Reg) (imm : Word) (s : State) :
    exec (.divc w r imm) s = .next (s.aluInto .div w r imm) := rfl

theorem exec_diva (w : Width) (r : Reg) (addr : Word) (s : State) :
    exec (.diva w r addr) s = .next ((s.charge w.bytes).aluInto .div w r (s.memRead addr w)) := rfl

/-- A register is the zero word where its whole value is 0. -/
theorem part_word_eq_zero_iff (v : Word) : Width.part .word v = 0 ↔ v = 0 := by
  rw [part_word, ← BitVec.toNat_inj]
  rfl

/-- Settles O5: DIV is of format FRR and does what the ALU does with a zero and with another divisor. -/
theorem divideByRegister : Obligations.DivideByRegister := by
  refine ⟨ruleFRR_of_format (by decide) rfl, fun reg1 reg2 s => ⟨fun h => ?zero, fun h => ?other⟩⟩
  case zero =>
    rw [exec_div, aluInto_div_zero s reg1 ((part_word_eq_zero_iff _).2 h)]
    rfl
  case other =>
    rw [exec_div, aluInto_div s reg1 (mt (part_word_eq_zero_iff _).1 h)]
    refine ⟨_, rfl, frame_writeReg s reg1 _, ?_⟩
    rw [readReg_writeReg_same, quotient_toNat, part_word, part_word]

/-- Settles O6: DIVC is of format FRI and tests the part of the immediate that its form keeps. -/
theorem divideByImmediate : Obligations.DivideByImmediate := by
  refine ⟨ruleFRI_of_format (by decide) rfl, fun w r imm s => ?_⟩
  simp only [← part_eq_mod_pick]
  refine ⟨fun h => ?zero, fun h => ?other⟩
  case zero =>
    rw [exec_divc, aluInto_div_zero s r h]
    rfl
  case other =>
    rw [exec_divc, aluInto_div s r h]
    refine ⟨_, rfl, frame_writeReg s r _, ?_⟩
    rw [readReg_writeReg_same, quotient_toNat]

/-- A memory operand is the zero word where its part is 0. -/
theorem part_memRead_eq_zero_iff (s : State) (a : Word) (w : Width) :
    w.part (s.memRead a w) = 0 ↔ s.memRead a w = 0 := by
  rw [part_memRead, ← BitVec.toNat_inj]
  rfl

/-- Settles O7: DIVA is of format FRA, charges its operand and tests it as it is. -/
theorem divideByMemory : Obligations.DivideByMemory := by
  refine ⟨ruleFRA_of_format (by decide) rfl, fun w r addr s => ?_⟩
  rw [← bytes_eq_pick, ← part_eq_mod_pick]
  refine ⟨fun h => ?zero, fun h => ?other⟩
  case zero =>
    rw [exec_diva, aluInto_div_zero _ r ((part_memRead_eq_zero_iff s addr w).2 h)]
    rfl
  case other =>
    rw [exec_diva, aluInto_div _ r (mt (part_memRead_eq_zero_iff s addr w).1 h)]
    refine ⟨_, rfl, frame_charge_writeReg s _ r _, ?_⟩
    rw [readReg_writeReg_same, quotient_toNat, part_memRead, charge_readReg]

/-! ### CMP (R87, R88) -/

/-- The top bit of a value of the form says whether it is in the upper half (R18). -/
theorem topBit_eq (w : Width) {t : Word} (h : t.toNat < w.modulus) :
    t.getLsbD (8 * w.bytes - 1) = decide (w.modulus ≤ 2 * t.toNat) := by
  rw [BitVec.getLsbD, Nat.testBit_eq_decide_div_mod_eq, decide_eq_decide]
  cases w with
  | word =>
    show t.toNat / 32768 % 2 = 1 ↔ 65536 ≤ 2 * t.toNat
    have : t.toNat < 65536 := h
    omega
  | byte =>
    show t.toNat / 128 % 2 = 1 ↔ 256 ≤ 2 * t.toNat
    have : t.toNat < 256 := h
    omega

theorem difference_lt (w : Width) (a b : Word) : (difference w a b).toNat < w.modulus := by
  rw [difference_toNat]
  exact Nat.mod_lt _ (by cases w <;> decide)

/-- The flags of a compare in the word form. -/
theorem compared_word (f : Flags) (a b : Word) :
    f.compared .word (difference .word a b) = { f with
      n := decide ((a.toNat - b.toNat : Int) % 65536 ≥ 32768)
      z := decide (a = b) } := by
  have hd : ((difference .word a b).toNat : Int) = (a.toNat - b.toNat : Int) % 65536 := difference_toInt .word a b
  have ha := a.isLt
  have hb := b.isLt
  rw [Flags.compared, topBit_eq .word (difference_lt .word a b)]
  congr 1
  · rw [decide_eq_decide, show Width.modulus .word = 65536 from rfl]
    omega
  · rw [decide_eq_decide, ← BitVec.toNat_inj]
    omega

/-- The flags of a compare in the byte form. -/
theorem compared_byte (f : Flags) (a : Word) (b : Byte) :
    f.compared .byte (difference .byte a (zext16 b)) = { f with
      n := decide ((a.toNat - b.toNat : Int) % 256 ≥ 128)
      z := decide (a.toNat % 256 = b.toNat) } := by
  have hd : ((difference .byte a (zext16 b)).toNat : Int) = (a.toNat - (zext16 b).toNat : Int) % 256 :=
    difference_toInt .byte a (zext16 b)
  have hb := b.isLt
  rw [zext16_toNat] at hd
  rw [Flags.compared, topBit_eq .byte (difference_lt .byte a (zext16 b))]
  congr 1
  · rw [decide_eq_decide, show Width.modulus .byte = 256 from rfl]
    omega
  · rw [decide_eq_decide]
    omega

theorem exec_cmp (reg1 reg2 : Reg) (s : State) :
    exec (.cmp reg1 reg2) s = .next { s with
      flags := s.flags.compared .word (difference .word (s.readReg reg1) (s.readReg reg2)) } := rfl

theorem exec_cmpa (w : Width) (r : Reg) (addr : Word) (s : State) :
    exec (.cmpa w r addr) s = .next { s with
      cyc := s.cyc - w.bytes
      flags := s.flags.compared w (difference w (s.readReg r) (s.memRead addr w)) } := rfl

/-- Settles O8: CMP is of format FRR and leaves the flags of `compared_word`. -/
theorem compareRegisters : Obligations.CompareRegisters := by
  refine ⟨ruleFRR_of_format (by decide) rfl, fun reg1 reg2 s => ?_⟩
  rw [exec_cmp, compared_word]

/-- Settles O9: CMPA is of format FRA and leaves the flags of `compared_word` or `compared_byte`. -/
theorem compareWithMemory : Obligations.CompareWithMemory := by
  refine ⟨ruleFRA_of_format (by decide) rfl, fun r addr s => ⟨?word, ?byte⟩⟩
  case word =>
    rw [exec_cmpa, compared_word]
    rfl
  case byte =>
    rw [exec_cmpa, memRead_byte, compared_byte]
    rfl

/-! ### INC, DEC, UXT and the loads (R89 to R97) -/

theorem exec_inc (r : Reg) (s : State) : exec (.inc r) s = .next (s.writeReg r (s.readReg r + 1)) :=
  congrArg (fun v => Host.Outcome.next (s.writeReg r v)) (sum_word (s.readReg r) 1)

theorem exec_dec (r : Reg) (s : State) : exec (.dec r) s = .next (s.writeReg r (s.readReg r - 1)) :=
  congrArg (fun v => Host.Outcome.next (s.writeReg r v)) (difference_word (s.readReg r) 1)

/-- Settles O10: both are of format FR and write the neighbour of the register's value. -/
theorem incrementAndDecrementRegister : Obligations.IncrementAndDecrementRegister :=
  ⟨ruleFR_of_format (by decide) rfl, ruleFR_of_format (by decide) rfl, fun r s =>
    ⟨⟨_, exec_inc r s, frame_writeReg s r _, readReg_writeReg_same s r _⟩,
      ⟨_, exec_dec r s, frame_writeReg s r _, readReg_writeReg_same s r _⟩⟩⟩

theorem exec_incm (w : Width) (addr : Word) (s : State) :
    exec (.incm w addr) s = .next ((s.charge w.bytes).storeData addr w (sum w (s.memRead addr w) 1)) := rfl

theorem exec_decm (w : Width) (addr : Word) (s : State) :
    exec (.decm w addr) s = .next ((s.charge w.bytes).storeData addr w (difference w (s.memRead addr w) 1)) := rfl

/-- An operand that was stored is read back as the part that the width keeps. -/
theorem storeData_memRead (s : State) (a : Word) (w : Width) (v : Word) :
    ((s.storeData a w v).memRead a w).toNat = w.part v := by
  rw [State.storeData, charge_memRead, memRead_memWrite]

theorem part_sum (w : Width) (a b : Word) : w.part (sum w a b) = (sum w a b).toNat := by
  refine Nat.mod_eq_of_lt ?_
  rw [sum_toNat]
  exact Nat.mod_lt _ (by cases w <;> decide)

theorem part_difference (w : Width) (a b : Word) : w.part (difference w a b) = (difference w a b).toNat :=
  Nat.mod_eq_of_lt (difference_lt w a b)

theorem bytes_add_bytes (w : Width) : w.bytes + w.bytes = w.pick 4 2 := by cases w <;> rfl

/-- Settles O11: both are of format FA and store the neighbour of the operand over it. -/
theorem incrementAndDecrementMemory : Obligations.IncrementAndDecrementMemory := by
  refine ⟨ruleFA_of_format (by decide) rfl, ruleFA_of_format (by decide) rfl, fun w addr s => ?_⟩
  rw [← bytes_add_bytes]
  refine ⟨⟨_, exec_incm w addr s, frame_charge_storeData s _ addr w _, ?inc⟩,
    ⟨_, exec_decm w addr s, frame_charge_storeData s _ addr w _, ?dec⟩⟩ <;>
    rw [storeData_memRead]
  case inc => rw [part_sum, sum_toNat_pick]; rfl
  case dec => rw [part_difference, difference_toInt]; rfl

theorem exec_uxt (r : Reg) (s : State) :
    exec (.uxt r) s = .next (s.writeReg r (zext16 (loByte (s.readReg r)))) := rfl

/-- Settles O12: UXT is of format FR and writes the zero-extended low byte. -/
theorem zeroExtendRegister : Obligations.ZeroExtendRegister := by
  refine ⟨ruleFR_of_format (by decide) rfl, fun r s => ⟨_, exec_uxt r s, frame_writeReg s r _, ?_⟩⟩
  rw [readReg_writeReg_same, zext16_toNat, loByte_toNat]

theorem exec_ldr (reg1 reg2 : Reg) (s : State) :
    exec (.ldr reg1 reg2) s = .next (s.writeReg reg1 (s.readReg reg2)) := rfl

/-- Settles O13: LDR is of format FRR and writes one slot's value to another. -/
theorem loadRegister : Obligations.LoadRegister :=
  ⟨ruleFRR_of_format (by decide) rfl, fun reg1 reg2 s =>
    ⟨_, exec_ldr reg1 reg2 s, frame_writeReg s reg1 _, readReg_writeReg_same s reg1 _⟩⟩

theorem exec_ldc (w : Width) (r : Reg) (imm : Word) (s : State) :
    exec (.ldc w r imm) s = .next (s.writeReg r imm) := rfl

/-- Settles O14: LDC is of format FRI and writes its immediate. -/
theorem loadConstant : Obligations.LoadConstant :=
  ⟨ruleFRI_of_format (by decide) rfl, fun w r imm s =>
    ⟨_, exec_ldc w r imm s, frame_writeReg s r imm, readReg_writeReg_same s r imm⟩⟩

theorem exec_ldm (w : Width) (r : Reg) (addr : Word) (s : State) :
    exec (.ldm w r addr) s = .next ((s.charge w.bytes).writeReg r (s.memRead addr w)) := rfl

/-- Settles O15: LDM is of format FRA, charges its operand and writes it. -/
theorem loadMemory : Obligations.LoadMemory := by
  refine ⟨ruleFRA_of_format (by decide) rfl, fun r addr s =>
    ⟨⟨_, exec_ldm .word r addr s, frame_charge_writeReg s 2 r _, ?word⟩,
      ⟨_, exec_ldm .byte r addr s, frame_charge_writeReg s 1 r _, ?byte⟩⟩⟩ <;>
    rw [readReg_writeReg_same]
  case word => rw [memRead_word, wordOf_toNat]
  case byte => rw [memRead_byte, zext16_toNat]

/-! ### Frames that are built from one another -/

theorem jump_readReg (s : State) (target : Word) {r : Reg} (h : r ≠ .pc) : (s.jump target).readReg r = s.readReg r :=
  readReg_writeReg_ne s target h

/-- A jump adds `pc` to what has changed. -/
theorem Frame.jump {s t : State} {regs : List Reg} {stored : List Word} {flags : Flags} {cost : Nat}
    (h : Frame s t regs stored flags cost) (target : Word) :
    Frame s (t.jump target) (.pc :: regs) stored flags cost where
  regs q hq := by
    obtain ⟨hpc, hregs⟩ := not_or.1 (mt List.mem_cons.2 hq)
    rw [jump_readReg t target hpc, h.regs q hregs]
  mem := h.mem
  flags := h.flags
  cyc := h.cyc
  halted := h.halted
  fault := h.fault
  layout := h.layout

/-- A register write adds its register. -/
theorem Frame.writeReg {s t : State} {regs : List Reg} {stored : List Word} {flags : Flags} {cost : Nat}
    (h : Frame s t regs stored flags cost) (r : Reg) (v : Word) :
    Frame s (t.writeReg r v) (r :: regs) stored flags cost where
  regs q hq := by
    obtain ⟨hr, hregs⟩ := not_or.1 (mt List.mem_cons.2 hq)
    rw [readReg_writeReg_ne t v hr, h.regs q hregs]
  mem a ha := (readByte_writeReg t r v a).trans (h.mem a ha)
  flags := (writeReg_flags t r v).trans h.flags
  cyc := (writeReg_cyc t r v).trans h.cyc
  halted := (writeReg_halted t r v).trans h.halted
  fault := (writeReg_fault t r v).trans h.fault
  layout := (writeReg_layout t r v).trans h.layout

/-- A store where nothing was stored before adds the cells of its operand and their cost. -/
theorem Frame.storeData {s t : State} {regs : List Reg} {flags : Flags} {cost : Nat}
    (h : Frame s t regs [] flags cost) (a : Word) (w : Width) (v : Word) :
    Frame s (t.storeData a w v) regs (cells w a) flags (cost + w.bytes) where
  regs q hq := (storeData_readReg t a w v q).trans (h.regs q hq)
  mem b hb := (readByte_memWrite_outside t v hb).trans (h.mem b List.not_mem_nil)
  flags := (memWrite_flags t a w v).trans h.flags
  cyc := by rw [storeData_cyc, h.cyc]; push_cast; omega
  halted := (memWrite_halted t a w v).trans h.halted
  fault := (memWrite_fault t a w v).trans h.fault
  layout := (memWrite_layout t a w v).trans h.layout

/-- A pop changes `sp`. -/
theorem frame_pop (s : State) (w : Width) : Frame s (s.pop w).2 [.sp] [] s.flags w.bytes where
  regs q hq :=
    (readReg_writeReg_ne (s.charge w.bytes) _ (mt List.mem_singleton.2 hq)).trans (charge_readReg s w.bytes q)
  mem _ _ := rfl
  flags := rfl
  cyc := rfl
  halted := rfl
  fault := rfl
  layout := rfl

/-! ### Control transfer (R100 to R116) -/

/-- The low byte of a pushed word stands at the new `sp`. -/
theorem push_word_readByte_lo (s : State) (v : Word) : (s.push .word v).readByte (s.sp - 2) = loByte v := by
  rw [push_readByte, readByte_memWrite_word]
  exact if_pos rfl

/-- The high byte of a pushed word stands above it. -/
theorem push_word_readByte_hi (s : State) (v : Word) : (s.push .word v).readByte (s.sp - 1) = hiByte v := by
  rw [push_readByte, readByte_memWrite_word, ← sub_two_add_one]
  exact (if_neg (word_add_one_ne (s.sp - 2))).trans (if_pos rfl)

@[simp] theorem push_word_sp (s : State) (v : Word) : (s.push .word v).sp = s.sp - 2 := by rw [push_word]

theorem exec_jsr (target : Word) (s : State) : exec (.jsr target) s = .next ((s.push .word s.pc).jump target) := rfl

/-- Settles O16: JSR is of format FT, and is a push of `pc` followed by a jump. -/
theorem callPushesTheReturnAddress : Obligations.CallPushesTheReturnAddress :=
  ⟨ruleFT_of_format (by decide) rfl, fun target s =>
    ⟨_, exec_jsr target s, (frame_push s .word s.pc).jump target, rfl, push_word_sp s s.pc,
      push_word_readByte_lo s s.pc, push_word_readByte_hi s s.pc⟩⟩

theorem exec_jmp (target : Word) (s : State) : exec (.jmp target) s = .next { s with pc := target } := rfl

/-- Settles O18: JMP is of format FT and writes `pc`. -/
theorem jumpSetsThePc : Obligations.JumpSetsThePc := ⟨ruleFT_of_format (by decide) rfl, exec_jmp⟩

theorem exec_jrz (r : Reg) (target : Word) (s : State) :
    exec (.jrz r target) s = .next (if s.readReg r = 0 then (s.charge 2).jump target else s.jump (s.pc + 2)) := rfl

/-- Settles O19: JRZ is of format FRT, and its two outcomes are those of its test. -/
theorem branchIfRegisterIsZero : Obligations.BranchIfRegisterIsZero := by
  refine ⟨ruleFRT_of_format (by decide) rfl, fun r target s => ⟨fun h => ?taken, fun h => ?notTaken⟩⟩
  case taken =>
    rw [exec_jrz, if_pos h]
    rfl
  case notTaken =>
    rw [exec_jrz, if_neg h]
    rfl

theorem cond_e_holds_iff (a v : Word) : Cond.e.holds a v = true ↔ a = v := by
  simp [Cond.holds, BitVec.toNat_inj]

theorem cond_n_holds_iff (a v : Word) : Cond.n.holds a v = true ↔ a ≠ v := by
  simp [Cond.holds, BitVec.toNat_inj]

theorem cond_g_holds_iff (a v : Word) : Cond.g.holds a v = true ↔ a.toNat > v.toNat := decide_eq_true_iff

theorem cond_ge_holds_iff (a v : Word) : Cond.ge.holds a v = true ↔ a.toNat ≥ v.toNat := decide_eq_true_iff

theorem cond_l_holds_iff (a v : Word) : Cond.l.holds a v = true ↔ a.toNat < v.toNat := decide_eq_true_iff

theorem cond_le_holds_iff (a v : Word) : Cond.le.holds a v = true ↔ a.toNat ≤ v.toNat := decide_eq_true_iff

/-- A branch whose condition is `P` writes `pc` where `P` holds. -/
theorem next_branch_of_iff {s : State} {k : Cond} {r : Reg} {v : Word} {P : Prop} [Decidable P]
    (h : k.holds (s.readReg r) v = true ↔ P) (target : Word) :
    (.next (s.branch k r v target) : Host.Outcome State Fault Refusal) =
      .next { s with pc := if P then target else s.pc } := by
  rw [branch_eq]
  simp only [h]

/-- The same with a memory operand, which is charged. -/
theorem next_branchMem_of_iff {s : State} {k : Cond} {w : Width} {r : Reg} {a : Word} {P : Prop} [Decidable P]
    (h : k.holds (s.readReg r) (s.memRead a w) = true ↔ P) (target : Word) :
    (.next (s.branchMem k w r a target) : Host.Outcome State Fault Refusal) =
      .next { s with cyc := s.cyc - w.pick 2 1, pc := if P then target else s.pc } := by
  rw [branchMem_eq, bytes_eq_pick]
  simp only [h]

/-- Settles O20: the six are of format FRIT and branch on their condition. -/
theorem compareAndBranchOnImmediate : Obligations.CompareAndBranchOnImmediate :=
  ⟨ruleFRIT_of_format (by decide) rfl, ruleFRIT_of_format (by decide) rfl, ruleFRIT_of_format (by decide) rfl,
    ruleFRIT_of_format (by decide) rfl, ruleFRIT_of_format (by decide) rfl, ruleFRIT_of_format (by decide) rfl,
    fun _ _ _ target _ =>
      ⟨next_branch_of_iff (cond_e_holds_iff _ _) target, next_branch_of_iff (cond_n_holds_iff _ _) target,
        next_branch_of_iff (cond_g_holds_iff _ _) target, next_branch_of_iff (cond_ge_holds_iff _ _) target,
        next_branch_of_iff (cond_l_holds_iff _ _) target, next_branch_of_iff (cond_le_holds_iff _ _) target⟩⟩

/-- Settles O21: the six are of format FRAT, charge their operand and branch on their condition. -/
theorem compareAndBranchOnMemory : Obligations.CompareAndBranchOnMemory :=
  ⟨ruleFRAT_of_format (by decide) rfl, ruleFRAT_of_format (by decide) rfl, ruleFRAT_of_format (by decide) rfl,
    ruleFRAT_of_format (by decide) rfl, ruleFRAT_of_format (by decide) rfl, ruleFRAT_of_format (by decide) rfl,
    fun _ _ _ target _ =>
      ⟨next_branchMem_of_iff (cond_e_holds_iff _ _) target, next_branchMem_of_iff (cond_n_holds_iff _ _) target,
        next_branchMem_of_iff (cond_g_holds_iff _ _) target, next_branchMem_of_iff (cond_ge_holds_iff _ _) target,
        next_branchMem_of_iff (cond_l_holds_iff _ _) target, next_branchMem_of_iff (cond_le_holds_iff _ _) target⟩⟩

/-! ### Stack instructions (R117 to R121) -/

theorem exec_push (r : Reg) (s : State) : exec (.push r) s = .next (s.push .word (s.readReg r)) := rfl

/-- Settles O22: PUSH is of format FR, and pushes the register read before `sp` moves. -/
theorem pushAlwaysPushesAWord : Obligations.PushAlwaysPushesAWord :=
  ⟨ruleFR_of_format (by decide) rfl, fun r s =>
    ⟨_, exec_push r s, frame_push s .word _, push_word_sp s _, push_word_readByte_lo s _, push_word_readByte_hi s _⟩⟩

theorem exec_pop (w : Width) (r : Reg) (s : State) :
    exec (.pop w r) s = .next ((s.pop w).2.writeReg r (s.memRead s.sp w)) := rfl

/-- Settles O23: POP is of format FR, and writes its register over a pop. -/
theorem popWritesTheRegisterAfterSp : Obligations.PopWritesTheRegisterAfterSp := by
  refine ⟨ruleFR_of_format (by decide) rfl, fun w r s => ?_⟩
  rw [← bytes_eq_pick]
  exact ⟨_, exec_pop w r s, (frame_pop s w).writeReg r _, readReg_writeReg_same _ r _,
    fun hr => writeReg_sp (s.pop w).2 _ hr⟩

theorem exec_popm (w : Width) (addr : Word) (s : State) :
    exec (.popm w addr) s = .next ((s.pop w).2.storeData addr w (s.memRead s.sp w)) := rfl

/-- Settles O24: POPM is of format FA, and stores over a pop what was popped. -/
theorem popToMemory : Obligations.PopToMemory := by
  refine ⟨ruleFA_of_format (by decide) rfl, fun w addr s => ?_⟩
  rw [← bytes_add_bytes, ← bytes_eq_pick]
  refine ⟨_, exec_popm w addr s, (frame_pop s w).storeData addr w _, memWrite_sp _ addr w _, ?readBack⟩
  case readBack =>
    apply BitVec.eq_of_toNat_eq
    rw [storeData_memRead, part_memRead]

theorem exec_pushs (s : State) : exec .pushs s = .next (s.push .word (zext16 (s.flags.pack s.layout))) := rfl

/-- Settles O25: PUSHS is of format F0, and pushes the zero-extended status byte. -/
theorem pushStatus : Obligations.PushStatus := by
  refine ⟨ruleF0_of_format (by decide) rfl, fun s =>
    ⟨_, exec_pushs s, frame_push s .word _, push_word_sp s _, ?status, ?zero⟩⟩
  case status => rw [push_word_readByte_lo, loByte_zext16]
  case zero => rw [push_word_readByte_hi, hiByte_zext16]

/-- POPS unpacks the byte at `sp`. -/
theorem exec_pops (s : State) : exec .pops s = .next { s with
    sp := s.sp + 2
    cyc := s.cyc - 2
    flags := Flags.unpack s.layout (s.readByte s.sp) } := by
  rw [← loByte_wordOf (s.readByte s.sp) (s.readByte (s.sp + 1))]
  rfl

/-- Settles O26: POPS is of format F0, and each flag is a bit of the byte that `exec_pops` unpacks. -/
theorem popStatus : Obligations.PopStatus := ⟨ruleF0_of_format (by decide) rfl, exec_pops⟩

/-! ### RESET (R123) -/

theorem exec_reset (s : State) : exec .reset s = .next s.resetCore := rfl

@[simp] theorem resetCore_readReg (s : State) (r : Reg) :
    s.resetCore.readReg r = if r = .sp then 0xFFFF else 0x0000 := by
  cases r <;> rfl

@[simp] theorem resetCore_readByte (s : State) (a : Word) : s.resetCore.readByte a = 0 := rfl

/-- Settles O27: RESET is of format F0, and leaves the state of `resetCore_eq`. -/
theorem resetOpcodeClearsTheCore : Obligations.ResetOpcodeClearsTheCore :=
  ⟨ruleF0_of_format (by decide) rfl, fun s =>
    ⟨_, exec_reset s, resetCore_eq s, resetCore_readReg s, resetCore_readByte s⟩⟩

end Sys2Proof.Machine

/-! What every instruction and every step keeps, and what they cost (spec/10_state.md R20 to R24, spec/60_exceptions.md
R130, spec/70_reset_and_hazards.md R152, R154, and the invariant). -/

namespace Sys2Proof.Machine

/-! ### Flags and halted -/

/-- Settles O44: `flagsAfter` keeps the flags of every other instruction. -/
theorem onlyFourInstructionsChangeFlags : Obligations.OnlyFourInstructionsChangeFlags := by
  intro i s t h hf
  rw [exec_flags h] at hf
  cases i with
  | cmp reg1 reg2 => exact .inl ⟨reg1, reg2, rfl⟩
  | cmpa w r addr => exact .inr (.inl ⟨w, r, addr, rfl⟩)
  | pops => exact .inr (.inr (.inl rfl))
  | reset => exact .inr (.inr (.inr rfl))
  | _ => exact absurd rfl hf

/-- Settles O45: a step that changes `halted` decodes HALT, whose two spellings `byte_of_decode_halt` names. -/
theorem onlyHaltChangesHalted : Obligations.OnlyHaltChangesHalted := by
  intro s t h changed
  obtain ⟨-, rfl⟩ | ⟨-, e, -, rfl⟩ | ⟨hr, i, rest, hd, hx⟩ := step_cases h
  case inl => exact absurd rfl changed
  case inr.inl => exact absurd rfl changed
  case inr.inr =>
    obtain ⟨-, hhalted, -⟩ := (running_iff s).1 hr
    by_cases hi : i = .halt
    · subst hi
      cases hx
      exact ⟨hhalted, byte_of_decode_halt hd, rfl⟩
    · exact absurd (exec_halted hi hx) changed

/-! ### The memory's form and the layout -/

/-- The state after still has a canonical memory, if it was canonical, and the same layout. -/
def KeepsForm (s t : State) : Prop := (s.mem.wf = true → t.mem.wf = true) ∧ t.layout = s.layout

theorem keepsForm_writeReg (s : State) (r : Reg) (v : Word) : KeepsForm s (s.writeReg r v) :=
  ⟨fun h => by rwa [writeReg_mem], writeReg_layout s r v⟩

theorem keepsForm_storeData (s : State) (a : Word) (w : Width) (v : Word) : KeepsForm s (s.storeData a w v) :=
  ⟨storeData_wf a w v, memWrite_layout s a w v⟩

theorem keepsForm_push (s : State) (w : Width) (v : Word) : KeepsForm s (s.push w v) :=
  ⟨push_wf w v, (frame_push s w v).layout⟩

theorem keepsForm_aluInto (s : State) (k : AluOp) (w : Width) (r : Reg) (b : Word) :
    KeepsForm s (s.aluInto k w r b) := by
  obtain ⟨v, -, h⟩ | ⟨-, -, h⟩ := aluInto_cases s k w r b
  · rw [h]
    exact keepsForm_writeReg s r v
  · rw [h]
    exact ⟨id, rfl⟩

theorem keepsForm_branch (s : State) (k : Cond) (r : Reg) (v target : Word) : KeepsForm s (s.branch k r v target) := by
  rw [branch_eq]
  exact ⟨id, rfl⟩

/-- Every instruction keeps the memory canonical and the layout: the operations that it is made of do. -/
theorem exec_keepsForm {i : Instr} {s t : State} (h : exec i s = .next t) : KeepsForm s t := by
  cases i with
  | nop | cmp | cmpa | rtn | jmp | pops | halt => cases h; exact ⟨id, rfl⟩
  | reset => cases h; exact ⟨fun _ => memory_wf_nil, rfl⟩
  | add | sub | mul | div | addc | subc | mulc | divc => cases h; exact keepsForm_aluInto s _ _ _ _
  | adda w | suba w | mula w | diva w =>
    cases h
    exact keepsForm_aluInto (s.charge w.bytes) _ w _ _
  | inc | dec | uxt | ldr | ldc => cases h; exact keepsForm_writeReg s _ _
  | ldm w r addr =>
    cases h
    exact keepsForm_writeReg (s.charge w.bytes) r (s.memRead addr w)
  | incm w addr | decm w addr =>
    cases h
    exact keepsForm_storeData (s.charge w.bytes) addr w _
  | jsr target =>
    cases h
    exact keepsForm_push s .word s.pc
  | push | pushs => cases h; exact keepsForm_push s .word _
  | pop w r =>
    cases h
    exact keepsForm_writeReg (s.pop w).2 r (s.memRead s.sp w)
  | popm w addr =>
    cases h
    exact keepsForm_storeData (s.pop w).2 addr w (s.memRead s.sp w)
  | jrz => cases h; split <;> exact ⟨id, rfl⟩
  | jre | jrn | jrg | jrge | jrl | jrle => cases h; exact keepsForm_branch s _ _ _ _
  | jrem w | jrnm w | jrgm w | jrgem w | jrlm w | jrlem w =>
    cases h
    exact keepsForm_branch (s.charge w.bytes) _ _ _ _

/-! ### The fault latch -/

@[simp] theorem charge_zero (s : State) : s.charge 0 = s := by simp [State.charge]

/-- The ALU leaves the latch alone, or latches DivideByZero and does nothing else. -/
theorem aluInto_fault_cases (s : State) (k : AluOp) (w : Width) (r : Reg) (b : Word) :
    (s.aluInto k w r b).fault = s.fault ∨ (k = .div ∧ s.aluInto k w r b = s.raise .divideByZero) := by
  obtain ⟨v, -, h⟩ | ⟨hk, -, h⟩ := aluInto_cases s k w r b
  · exact .inl (by rw [h, writeReg_fault])
  · exact .inr ⟨hk, h⟩

theorem branch_fault (s : State) (k : Cond) (r : Reg) (v target : Word) : (s.branch k r v target).fault = s.fault := by
  rw [branch_eq]

theorem storeData_fault (s : State) (a : Word) (w : Width) (v : Word) : (s.storeData a w v).fault = s.fault :=
  memWrite_fault s a w v

theorem push_fault (s : State) (w : Width) (v : Word) : (s.push w v).fault = s.fault := (frame_push s w v).fault

theorem bytes_le_two (w : Width) : w.bytes ≤ 2 := by cases w <;> decide

/-- An instruction leaves the latch alone, or is a division of at most four bytes that latches DivideByZero after the
charge of its operand and does nothing else (R129, R130). -/
theorem exec_fault_cases {i : Instr} {s t : State} (h : exec i s = .next t) :
    t.fault = s.fault ∨ (i.fetchedBytes ≤ 4 ∧ ∃ read, read ≤ 2 ∧ t = (s.charge read).raise .divideByZero) := by
  cases i with
  | nop | cmp | cmpa | rtn | jmp | pops | reset | halt => cases h; exact .inl rfl
  | add | sub | mul | addc | subc | mulc =>
    cases h
    obtain hf | ⟨hk, -⟩ := aluInto_fault_cases s _ _ _ _
    · exact .inl hf
    · cases hk
  | adda w | suba w | mula w =>
    cases h
    obtain hf | ⟨hk, -⟩ := aluInto_fault_cases (s.charge w.bytes) _ w _ _
    · exact .inl hf
    · cases hk
  | div reg1 reg2 =>
    cases h
    obtain hf | ⟨-, hz⟩ := aluInto_fault_cases s .div .word reg1 (s.readReg reg2)
    · exact .inl hf
    · exact .inr ⟨Nat.le_of_ble_eq_true rfl, 0, Nat.zero_le 2, by rw [charge_zero]; exact hz⟩
  | divc w r imm =>
    cases h
    obtain hf | ⟨-, hz⟩ := aluInto_fault_cases s .div w r imm
    · exact .inl hf
    · exact .inr ⟨by cases w <;> exact Nat.le_of_ble_eq_true rfl, 0, Nat.zero_le 2, by rw [charge_zero]; exact hz⟩
  | diva w r addr =>
    cases h
    obtain hf | ⟨-, hz⟩ := aluInto_fault_cases (s.charge w.bytes) .div w r (s.memRead addr w)
    · exact .inl hf
    · exact .inr ⟨Nat.le_of_ble_eq_true rfl, w.bytes, bytes_le_two w, hz⟩
  | inc | dec | uxt | ldr | ldc | ldm => cases h; exact .inl (writeReg_fault _ _ _)
  | incm | decm => cases h; exact .inl (storeData_fault _ _ _ _)
  | jsr => cases h; exact .inl (push_fault s .word s.pc)
  | push | pushs => cases h; exact .inl (push_fault s .word _)
  | pop w r => cases h; exact .inl (writeReg_fault (s.pop w).2 r _)
  | popm w addr => cases h; exact .inl (storeData_fault (s.pop w).2 addr w _)
  | jrz => cases h; exact .inl (by split <;> rfl)
  | jre | jrn | jrg | jrge | jrl | jrle | jrem | jrnm | jrgm | jrgem | jrlm | jrlem =>
    cases h
    exact .inl (branch_fault _ _ _ _ _)

/-- Every instruction fetches at least its opcode byte before it acts. -/
theorem one_le_fetchedBytes (i : Instr) : 1 ≤ i.fetchedBytes := by
  cases i with
  | addc w | subc w | mulc w | divc w | ldc w | jre w | jrn w | jrg w | jrge w | jrl w | jrle w =>
    cases w <;> exact Nat.le_of_ble_eq_true rfl
  | _ => exact Nat.le_of_ble_eq_true rfl

/-- A fetch that raises in memory has fetched one to three bytes. -/
theorem bytesFetchedAt_bounds {s : State} {e : DecodeError} (h : decode (s.bytesAt s.pc 6) = .error e) :
    1 ≤ bytesFetchedAt e ∧ bytesFetchedAt e ≤ 3 := by
  obtain ⟨-, rfl⟩ | ⟨n, rfl, hn, -⟩ := decode_bytesAt_eq_error h
  · exact ⟨Nat.le_of_ble_eq_true rfl, Nat.le_of_ble_eq_true rfl⟩
  · simp only [bytesFetchedAt]
    omega

/-- Settles O43: a fault of the fetch leaves `faultedAfter`, and one of the instruction is a zero divisor's. -/
theorem faultsArePrecise : Obligations.FaultsArePrecise := by
  intro s t h changed
  obtain ⟨-, rfl⟩ | ⟨hr, e, hd, rfl⟩ | ⟨hr, i, rest, hd, hx⟩ := step_cases h
  case inl => exact absurd rfl changed
  case inr.inl =>
    obtain ⟨-, hhalted, hfault⟩ := (running_iff s).1 hr
    obtain ⟨h1, h3⟩ := bytesFetchedAt_bounds hd
    exact ⟨hfault, hhalted, bytesFetchedAt e, 0, h1, by omega, by decide, rfl⟩
  case inr.inr =>
    obtain ⟨-, hhalted, hfault⟩ := (running_iff s).1 hr
    obtain hf | ⟨h4, read, h2, rfl⟩ := exec_fault_cases hx
    · exact absurd hf changed
    · refine ⟨hfault, hhalted, i.fetchedBytes, read, one_le_fetchedBytes i, h4, h2, ?_⟩
      simp only [State.raise, State.charge, State.fetched, Nat.cast_add, Int.sub_sub]

/-! ### The counter

`State.startRun`, which loads the counter (R68), spells the state with another counter. -/

/-- The cycles that an instruction charges after its fetches: one for each byte of data that it moves, and two for the
target word of a JRZ that is taken (R61, R62, R103). -/
def dataCycles (i : Instr) (s : State) : Nat :=
  match i with
  | .adda w _ _ | .suba w _ _ | .mula w _ _ | .diva w _ _ | .cmpa w _ _ | .ldm w _ _ | .pop w _ => w.bytes
  | .jrem w _ _ _ | .jrnm w _ _ _ | .jrgm w _ _ _ | .jrgem w _ _ _ | .jrlm w _ _ _ | .jrlem w _ _ _ => w.bytes
  | .incm w _ | .decm w _ | .popm w _ => w.bytes + w.bytes
  | .jsr _ | .rtn | .push _ | .pushs | .pops => 2
  | .jrz r _ => if s.readReg r = 0 then 2 else 0
  | _ => 0

theorem dataCycles_jrz (r : Reg) (target : Word) (s : State) :
    dataCycles (.jrz r target) s = if s.readReg r = 0 then 2 else 0 := rfl

theorem writeReg_startRun (s : State) (c : Int) (r : Reg) (v : Word) :
    (s.startRun c).writeReg r v = (s.writeReg r v).startRun c := by
  cases r <;> rfl

theorem storeData_startRun (s : State) (c : Int) (a : Word) (w : Width) (v : Word) :
    (s.startRun c).storeData a w v = (s.storeData a w v).startRun (c - w.bytes) := by
  cases w <;> rfl

theorem push_startRun (s : State) (c : Int) (w : Width) (v : Word) :
    (s.startRun c).push w v = (s.push w v).startRun (c - w.bytes) := by
  cases w <;> rfl

theorem aluInto_startRun (s : State) (c : Int) (k : AluOp) (w : Width) (r : Reg) (b : Word) :
    (s.startRun c).aluInto k w r b = (s.aluInto k w r b).startRun c := by
  unfold State.aluInto
  rw [show (s.startRun c).readReg r = s.readReg r from rfl]
  cases alu k w (s.readReg r) b with
  | some v => exact writeReg_startRun s c r v
  | none => rfl

theorem branch_startRun (s : State) (c : Int) (k : Cond) (r : Reg) (v target : Word) :
    (s.startRun c).branch k r v target = (s.branch k r v target).startRun c := by
  rw [branch_eq, branch_eq]
  rfl

/-- A counter that is spelled in another way. -/
theorem next_startRun_of_eq {t u : State} {c d : Int} (h : u = t.startRun c) (hd : d = c) :
    (.next u : Host.Outcome State Fault Refusal) = .next (t.startRun d) := by
  rw [h, hd]

theorem sub_bytes_twice (c : Int) (w : Width) : c - (w.bytes + w.bytes : Nat) = c - w.bytes - w.bytes := by
  rw [Nat.cast_add, Int.sub_sub]

/-- R24, for an instruction: with another counter it does the same, and charges the same cycles. -/
theorem exec_startRun {i : Instr} {s t : State} (h : exec i s = .next t) (c : Int) :
    exec i (s.startRun c) = .next (t.startRun (c - dataCycles i s)) := by
  cases i with
  | nop | cmp | jmp | reset | halt =>
    cases h
    exact next_startRun_of_eq rfl (Int.sub_zero c)
  | add reg1 reg2 | sub reg1 reg2 | mul reg1 reg2 | div reg1 reg2 =>
    cases h
    exact next_startRun_of_eq (aluInto_startRun s c _ .word reg1 (s.readReg reg2)) (Int.sub_zero c)
  | addc w r imm | subc w r imm | mulc w r imm | divc w r imm =>
    cases h
    exact next_startRun_of_eq (aluInto_startRun s c _ w r imm) (Int.sub_zero c)
  | inc | dec | uxt | ldr | ldc =>
    cases h
    exact next_startRun_of_eq (writeReg_startRun s c _ _) (Int.sub_zero c)
  | jre | jrn | jrg | jrge | jrl | jrle =>
    cases h
    exact next_startRun_of_eq (branch_startRun s c _ _ _ _) (Int.sub_zero c)
  | adda w r addr | suba w r addr | mula w r addr | diva w r addr =>
    cases h
    exact congrArg Host.Outcome.next (aluInto_startRun (s.charge w.bytes) (c - w.bytes) _ w r (s.memRead addr w))
  | cmpa | rtn | pops => cases h; rfl
  | ldm w r addr =>
    cases h
    exact congrArg Host.Outcome.next (writeReg_startRun (s.charge w.bytes) (c - w.bytes) r (s.memRead addr w))
  | pop w r =>
    cases h
    exact congrArg Host.Outcome.next (writeReg_startRun (s.pop w).2 (c - w.bytes) r (s.memRead s.sp w))
  | jrem w r addr target | jrnm w r addr target | jrgm w r addr target | jrgem w r addr target
  | jrlm w r addr target | jrlem w r addr target =>
    cases h
    exact congrArg Host.Outcome.next
      (branch_startRun (s.charge w.bytes) (c - w.bytes) _ r (s.memRead addr w) target)
  | incm w addr | decm w addr =>
    cases h
    exact next_startRun_of_eq (storeData_startRun (s.charge w.bytes) (c - w.bytes) addr w _)
      (sub_bytes_twice c w)
  | popm w addr =>
    cases h
    exact next_startRun_of_eq (storeData_startRun (s.pop w).2 (c - w.bytes) addr w (s.memRead s.sp w))
      (sub_bytes_twice c w)
  | jsr target =>
    cases h
    exact congrArg (fun t => Host.Outcome.next (State.jump t target)) (push_startRun s c .word s.pc)
  | push | pushs =>
    cases h
    exact congrArg Host.Outcome.next (push_startRun s c .word _)
  | jrz r target =>
    cases h
    by_cases hz : s.readReg r = 0
    · rw [exec_jrz, if_pos hz, dataCycles_jrz, if_pos hz]
      exact congrArg Host.Outcome.next (if_pos hz)
    · rw [exec_jrz, if_neg hz, dataCycles_jrz, if_neg hz]
      exact next_startRun_of_eq (if_neg hz) (Int.sub_zero c)

/-- What an instruction charges after its fetches. -/
theorem exec_cyc {i : Instr} {s t : State} (h : exec i s = .next t) : t.cyc = s.cyc - dataCycles i s := by
  have ht : t = t.startRun (s.cyc - dataCycles i s) := Host.Outcome.next.inj (h.symm.trans (exec_startRun h s.cyc))
  exact congrArg State.cyc ht

/-- R24: with any other positive budget the same step is taken, and the counter falls by the same amount. -/
theorem step_startRun {s t : State} (hr : s.running = true) (h : step s = .next t) {c : Int} (hc : 0 < c) :
    step (s.startRun c) = .next (t.startRun (c - (s.cyc - t.cyc))) := by
  obtain ⟨-, hhalted, hfault⟩ := (running_iff s).1 hr
  have hr' : (s.startRun c).running = true := (running_iff (s.startRun c)).2 ⟨hc, hhalted, hfault⟩
  obtain ⟨hn, -⟩ | ⟨-, e, hd, rfl⟩ | ⟨-, i, rest, hd, hx⟩ := step_cases h
  case inl => exact absurd hr (by simp [hn])
  case inr.inl =>
    rw [step_of_decode_error (s := s.startRun c) hr' hd]
    simp [State.faultedAfter, State.fetched, State.startRun]
  case inr.inr =>
    have hcost : t.cyc = s.cyc - i.fetchedBytes - dataCycles i (s.fetched i.fetchedBytes) := exec_cyc hx
    rw [step_of_decode_ok (s := s.startRun c) hr' hd, hcost, Int.sub_sub, Int.sub_sub_self, ← Int.sub_sub]
    exact exec_startRun hx (c - i.fetchedBytes)

/-- Settles O47 by `step_startRun`. -/
theorem cycleCounterDoesNotInfluenceExecution : Obligations.CycleCounterDoesNotInfluenceExecution := by
  intro s c hr hc
  obtain ⟨t, ht⟩ := step_answers_next s
  exact ⟨t, ht, step_startRun hr ht hc⟩

/-! ### Lengths and cycles -/

/-- The encoding has the length of its row (R154). -/
theorem encode_length (i : Instr) (taken : Bool) : (encode i).length = (i.tableRow taken).1 := by
  cases i with
  | addc w | subc w | mulc w | divc w | ldc w | jre w | jrn w | jrg w | jrge w | jrl w | jrle w => cases w <;> rfl
  | _ => rfl

/-- The cycles of a row are those of the fetches and those of the data, where `taken` says whether a JRZ is (R154). -/
theorem tableRow_cycles {i : Instr} {s : State} {taken : Bool}
    (h : ∀ r target, i = .jrz r target → taken = decide (s.readReg r = 0)) :
    (i.tableRow taken).2 = i.fetchedBytes + dataCycles i s := by
  cases i with
  | jrz r target =>
    rw [h r target rfl, dataCycles_jrz]
    by_cases hz : s.readReg r = 0 <;> simp only [hz, if_true, if_false, decide_true, decide_false] <;> rfl
  | addc w | subc w | mulc w | divc w | ldc w | jre w | jrn w | jrg w | jrge w | jrl w | jrle w => cases w <;> rfl
  | adda w | suba w | mula w | diva w | cmpa w | incm w | decm w | ldm w | pop w | popm w => cases w <;> rfl
  | jrem w | jrnm w | jrgm w | jrgem w | jrlm w | jrlem w => cases w <;> rfl
  | _ => rfl

/-- The bytes at `pc` that an instruction does not use are those beyond its length. -/
theorem rest_length {s : State} {i : Instr} {rest : List Byte} (h : decode (s.bytesAt s.pc 6) = .ok (i, rest)) :
    rest.length + (encode i).length = 6 := by
  obtain ⟨tail, ⟨-, henc⟩, hbs⟩ := spells_of_decode h
  have hlen : 5 = tail.length + rest.length := by
    simpa only [State.bytesAt, List.length, List.length_append] using congrArg List.length hbs
  rw [henc, List.length_cons]
  omega

/-- Settles O48: the length by `encode_length`, the cycles by `exec_cyc` and `tableRow_cycles`. -/
theorem lengthsAndCyclesFollowTheTable : Obligations.LengthsAndCyclesFollowTheTable := by
  intro s i rest hr hd taken htaken
  refine ⟨encode_length i taken ▸ rest_length hd, ?cycles⟩
  case cycles =>
    obtain ⟨t, ht⟩ := exec_answers_next i (s.fetched i.fetchedBytes)
    refine ⟨t, (step_of_decode_ok hr hd).trans ht, ?_⟩
    have hrow : (i.tableRow taken).2 = i.fetchedBytes + dataCycles i (s.fetched i.fetchedBytes) := by
      refine tableRow_cycles fun r target hi => ?_
      subst hi
      exact htaken r target rfl
    rw [exec_cyc ht, hrow, fetched_cyc, Nat.cast_add, Int.sub_sub]

/-- No instruction costs more than eight cycles (R155). -/
theorem fetchedBytes_add_dataCycles_le (i : Instr) (s : State) : i.fetchedBytes + dataCycles i s ≤ 8 := by
  cases i with
  | jrz r target =>
    rw [dataCycles_jrz]
    split <;> exact Nat.le_of_ble_eq_true rfl
  | addc w | subc w | mulc w | divc w | ldc w | jre w | jrn w | jrg w | jrge w | jrl w | jrle w =>
    cases w <;> exact Nat.le_of_ble_eq_true rfl
  | adda w | suba w | mula w | diva w | cmpa w | incm w | decm w | ldm w | pop w | popm w =>
    cases w <;> exact Nat.le_of_ble_eq_true rfl
  | jrem w | jrnm w | jrgm w | jrgem w | jrlm w | jrlem w => cases w <;> exact Nat.le_of_ble_eq_true rfl
  | _ => exact Nat.le_of_ble_eq_true rfl

/-- R155: a step of a running core costs one to eight cycles, those of a fault among them. -/
theorem step_cyc_bounds {s t : State} (hr : s.running = true) (h : step s = .next t) :
    s.cyc - 8 ≤ t.cyc ∧ t.cyc < s.cyc := by
  obtain ⟨hn, -⟩ | ⟨-, e, hd, rfl⟩ | ⟨-, i, rest, hd, hx⟩ := step_cases h
  case inl => exact absurd hr (by simp [hn])
  case inr.inl =>
    obtain ⟨h1, h3⟩ := bytesFetchedAt_bounds hd
    have hcost : (s.faultedAfter (bytesFetchedAt e)).cyc = s.cyc - bytesFetchedAt e := rfl
    omega
  case inr.inr =>
    have hcost : t.cyc = s.cyc - i.fetchedBytes - dataCycles i (s.fetched i.fetchedBytes) := exec_cyc hx
    have h1 := one_le_fetchedBytes i
    have h8 := fetchedBytes_add_dataCycles_le i (s.fetched i.fetchedBytes)
    omega

/-! ### The invariant -/

/-- Settles O49: the fields of the state after reset. -/
theorem invariantHoldsAtReset : Obligations.InvariantHoldsAtReset where
  mem := reset_mem_wf
  layout := by decide
  cyc := by decide
  stop := fun _ => rfl

/-- A step keeps the memory canonical and the layout. -/
theorem step_keepsForm {s t : State} (h : step s = .next t) : KeepsForm s t := by
  obtain ⟨-, rfl⟩ | ⟨-, e, -, rfl⟩ | ⟨-, i, rest, -, hx⟩ := step_cases h
  · exact ⟨id, rfl⟩
  · exact ⟨id, rfl⟩
  · obtain ⟨hmem, hlayout⟩ := exec_keepsForm hx
    exact ⟨hmem, hlayout⟩

/-- A step of a running core does not both halt and latch a fault (R133): HALT latches none, and nothing else sets
`halted`. -/
theorem step_not_halted_and_faulted {s t : State} (hr : s.running = true) (h : step s = .next t)
    (ht : t.halted = true) : t.fault = none := by
  obtain ⟨-, hhalted, hfault⟩ := (running_iff s).1 hr
  obtain ⟨-, -, rfl⟩ := onlyHaltChangesHalted s t h (by rw [hhalted, ht]; decide)
  exact hfault

/-- Settles O50: a stopped core stays as it is; a step of a running one keeps the memory and the layout by
`step_keepsForm`, overdraws by at most 7 since it starts with at least 1 and costs at most 8, and stops for one reason
alone. -/
theorem stepKeepsTheInvariant : Obligations.StepKeepsTheInvariant := by
  intro s t hs h
  cases hr : s.running with
  | false =>
    cases (step_of_not_running hr).symm.trans h
    exact hs
  | true =>
    obtain ⟨hmem, hlayout⟩ := step_keepsForm h
    obtain ⟨hpos, -, -⟩ := (running_iff s).1 hr
    obtain ⟨hcyc, -⟩ := step_cyc_bounds hr h
    exact ⟨hmem hs.mem, hlayout ▸ hs.layout, by omega, step_not_halted_and_faulted hr h⟩

end Sys2Proof.Machine

/-! Runs (spec/40_execution_loop.md R68, R69, spec/70_reset_and_hazards.md R152, R155): as many turns as the counter
says are enough, so that `Run` is the loop of R68. -/

namespace Sys2Proof.Machine

/-- The loop of R68 from a state whose counter is loaded. -/
def State.loop (s : State) : State := runFor s.cyc.toNat s

theorem runBudget_eq_loop (budget : Int) (s : State) : runBudget budget s = (s.startRun budget).loop := rfl

/-- A running core has turns left, and its step leaves fewer. -/
theorem toNat_cyc_lt {s t : State} (hr : s.running = true) (h : step s = .next t) : t.cyc.toNat < s.cyc.toNat := by
  obtain ⟨hpos, -, -⟩ := (running_iff s).1 hr
  obtain ⟨-, hlt⟩ := step_cyc_bounds hr h
  omega

/-- Turns beyond those that the counter allows change nothing (R155). -/
theorem runFor_eq_loop {n : Nat} {s : State} (hn : s.cyc.toNat ≤ n) : runFor n s = s.loop := by
  induction n using Nat.strong_induction_on generalizing s with
  | _ n ih =>
    cases hr : s.running with
    | false => rw [State.loop, runFor_of_not_running _ hr, runFor_of_not_running _ hr]
    | true =>
      obtain ⟨t, ht⟩ := step_answers_next s
      have hlt := toNat_cyc_lt hr ht
      obtain ⟨m, rfl⟩ : ∃ m, n = m + 1 := ⟨n - 1, by omega⟩
      obtain ⟨k, hk⟩ : ∃ k, s.cyc.toNat = k + 1 := ⟨s.cyc.toNat - 1, by omega⟩
      rw [State.loop, hk, runFor_succ_of_step m hr ht, runFor_succ_of_step k hr ht, ih m (by omega) (by omega),
        ih k (by omega) (by omega)]

theorem loop_of_not_running {s : State} (h : s.running = false) : s.loop = s := runFor_of_not_running _ h

/-- R68: where the loop condition holds, the loop is a step and then the loop. -/
theorem loop_of_step {s t : State} (hr : s.running = true) (h : step s = .next t) : s.loop = t.loop := by
  have hlt := toNat_cyc_lt hr h
  obtain ⟨k, hk⟩ : ∃ k, s.cyc.toNat = k + 1 := ⟨s.cyc.toNat - 1, by omega⟩
  rw [State.loop, hk, runFor_succ_of_step k hr h, runFor_eq_loop (by omega)]

/-- What holds of every stopped state, and of a running one if it holds after its step, holds of every state: the
counter falls in a step. -/
theorem loop_induction {P : State → Prop} (stopped : ∀ s, s.running = false → P s)
    (running : ∀ s t, s.running = true → step s = .next t → P t → P s) (s : State) : P s := by
  induction h : s.cyc.toNat using Nat.strong_induction_on generalizing s with
  | _ n ih =>
    subst h
    cases hr : s.running with
    | false => exact stopped s hr
    | true =>
      obtain ⟨t, ht⟩ := step_answers_next s
      exact running s t hr ht (ih _ (toNat_cyc_lt hr ht) t rfl)

/-- R155: the loop ends. -/
theorem loop_not_running (s : State) : s.loop.running = false := by
  induction s using loop_induction with
  | stopped s hr => rwa [loop_of_not_running hr]
  | running s t hr h ih => rwa [loop_of_step hr h]

/-- Settles O53: a run is a loop. -/
theorem everyRunEnds : Obligations.EveryRunEnds := fun budget s => loop_not_running (s.startRun budget)

/-- Settles O54: `loop_of_step` where the loop condition holds, with the counter as loaded by the step before. -/
theorem runIsTheLoop : Obligations.RunIsTheLoop := by
  refine ⟨running_iff, fun budget s => ⟨runBudget_of_not_running, fun hr => ?running⟩⟩
  case running =>
    obtain ⟨t, ht⟩ := step_answers_next { s with cyc := budget }
    exact ⟨t, ht, loop_of_step hr ht⟩

/-- R69: the loop spends the counter, and overdraws it by at most 7. -/
theorem loop_cyc_bounds (s : State) : -7 ≤ s.cyc → -7 ≤ s.loop.cyc ∧ s.loop.cyc ≤ s.cyc := by
  induction s using loop_induction with
  | stopped s hr => exact fun h => by rw [loop_of_not_running hr]; exact ⟨h, le_rfl⟩
  | running s t hr h ih =>
    intro _
    obtain ⟨hpos, -, -⟩ := (running_iff s).1 hr
    obtain ⟨hge, hlt⟩ := step_cyc_bounds hr h
    obtain ⟨h7, hle⟩ := ih (by omega)
    rw [loop_of_step hr h]
    exact ⟨h7, by omega⟩

/-- Settles O55 by `loop_cyc_bounds`. -/
theorem runOverdrawsByAtMostSeven : Obligations.RunOverdrawsByAtMostSeven := by
  intro budget s hb
  have hloaded : (s.startRun budget).cyc = budget := rfl
  have h := loop_cyc_bounds (s.startRun budget) (by omega)
  rwa [hloaded] at h

/-- R152: a loop that runs out of its counter and then goes on with another is one loop: the second counter and what the
first loop used, taken together. -/
theorem loop_split {second : Int} (h2 : 0 < second) (s : State) : s.loop.halted = false → s.loop.fault = none →
    (s.loop.startRun second).loop = (s.startRun (s.cyc - s.loop.cyc + second)).loop := by
  induction s using loop_induction with
  | stopped s hr =>
    intro _ _
    rw [loop_of_not_running hr, Int.sub_self, Int.zero_add]
  | running s t hr h ih =>
    rw [loop_of_step hr h]
    intro hhalted hfault
    have hout : t.loop.cyc ≤ 0 := by
      have hstopped := (running_eq_false_iff t.loop).1 (loop_not_running t)
      simpa only [hhalted, hfault, Bool.false_eq_true, ne_eq, not_true_eq_false, or_false] using hstopped
    obtain ⟨hpos, hh, hf⟩ := (running_iff s).1 hr
    have hmore : 0 < s.cyc - t.loop.cyc + second := by omega
    have hr' : (s.startRun (s.cyc - t.loop.cyc + second)).running = true := (running_iff _).2 ⟨hmore, hh, hf⟩
    have hleft : s.cyc - t.loop.cyc + second - (s.cyc - t.cyc) = t.cyc - t.loop.cyc + second := by omega
    rw [loop_of_step hr' (step_startRun hr h hmore), hleft]
    exact ih hhalted hfault

/-- Settles O56 by `loop_split`, from the state with the first budget loaded. -/
theorem splitRunsGiveTheSameResult : Obligations.SplitRunsGiveTheSameResult :=
  fun budget _ s h2 hhalted hfault => loop_split h2 (s.startRun budget) hhalted hfault

end Sys2Proof.Machine

/-! Pairs of instructions that undo each other (spec/45_stack.md R122, spec/42_compare_incdec_uxt.md R94), the resets
(spec/70_reset_and_hazards.md R142, R143) and the host port (spec/40_execution_loop.md R71, R145). -/

namespace Sys2Proof.Machine

/-! ### Push and pop -/

/-- A pop of a word that was pushed, wherever `sp` and its two bytes are as the push left them: it reads the word. -/
theorem memRead_of_pushed {s t : State} {v : Word} (hsp : t.sp = (s.push .word v).sp)
    (hlo : t.readByte (s.push .word v).sp = (s.push .word v).readByte (s.push .word v).sp)
    (hhi : t.readByte ((s.push .word v).sp + 1) = (s.push .word v).readByte ((s.push .word v).sp + 1)) :
    t.memRead t.sp .word = v := by
  rw [memRead_word, hsp, hlo, hhi, push_word_sp, sub_two_add_one, push_word_readByte_lo, push_word_readByte_hi,
    wordOf_loByte_hiByte]

/-- And `sp` is restored. -/
theorem sp_add_two_of_pushed {s t : State} {v : Word} (hsp : t.sp = (s.push .word v).sp) : t.sp + 2 = s.sp := by
  rw [hsp, push_word_sp, sub_two_add_two]

/-- Settles O57: the POP reads the pushed word, and both change no other register by their frames. -/
theorem popAfterPush : Obligations.PopAfterPush := by
  refine fun r r' s => ⟨_, exec_push r s, fun q hq => (frame_push s .word _).regs q (mt List.mem_singleton.1 hq),
    fun t hsp hlo hhi => ⟨_, exec_pop .word r' t, ?popped, fun hr => ?sp, fun q hq hqsp => ?others⟩⟩
  case popped => rw [readReg_writeReg_same, memRead_of_pushed hsp hlo hhi]
  case sp =>
    rw [writeReg_sp _ _ hr]
    exact sp_add_two_of_pushed hsp
  case others => exact ((frame_pop t .word).writeReg r' _).regs q (by simp [hq, hqsp])

/-- Settles O58: the POPS finds the status byte at `sp`, and `unpack_pack` gives the flags back. -/
theorem popStatusAfterPushStatus : Obligations.PopStatusAfterPushStatus := by
  refine fun s hl => ⟨_, exec_pushs s, fun t hlayout hsp hlo hhi => ⟨_, exec_pops t, ?flags, sp_add_two_of_pushed hsp⟩⟩
  case flags =>
    have hstatus : t.readByte t.sp = s.flags.pack s.layout := by
      rw [hsp, hlo, push_word_sp, push_word_readByte_lo, loByte_zext16]
    rw [hlayout, hstatus, (frame_push s .word _).layout]
    exact unpack_pack hl s.flags

/-- Settles O59: the RTN pops the address that the JSR pushed. -/
theorem returnAfterCall : Obligations.ReturnAfterCall := fun target s =>
  ⟨_, exec_jsr target s, fun t hsp hlo hhi =>
    ⟨_, exec_rtn t, memRead_of_pushed (s := s) (v := s.pc) hsp hlo hhi, sp_add_two_of_pushed (s := s) (v := s.pc) hsp⟩⟩

/-! ### Increment and decrement -/

/-- Operands that read the same have the same bytes. -/
theorem readByte_eq_of_memRead_eq {s t : State} {a : Word} {w : Width} (h : t.memRead a w = s.memRead a w) {b : Word}
    (hb : b ∈ cells w a) : t.readByte b = s.readByte b := by
  cases w with
  | byte =>
    cases List.mem_singleton.1 hb
    simpa using congrArg loByte h
  | word =>
    obtain rfl | rfl : b = a ∨ b = a + 1 := by simpa [cells] using hb
    · simpa using congrArg loByte h
    · simpa using congrArg hiByte h

/-- The neighbour below the neighbour above, modulo the width. -/
theorem toNat_eq_of_succ_pred {w : Width} {m m' m'' : Nat} (hm : m < w.modulus)
    (hup : m' = (m + 1) % w.pick 65536 256) (hdown : (m'' : Int) = (m' - 1 : Int) % w.pick 65536 256) : m'' = m := by
  rw [← modulus_eq_pick] at hup hdown
  cases w <;> simp only [Width.modulus] at hm hup hdown <;> omega

/-- Settles O60: a register is written back, and of memory the frames of INCM and DECM leave the operand alone, which
DECM restores. -/
theorem decrementUndoesIncrement : Obligations.DecrementUndoesIncrement := by
  refine ⟨fun r s => ⟨_, exec_inc r s, ?register⟩, fun w addr s => ?memory⟩
  case register => rw [exec_dec, readReg_writeReg_same, writeReg_writeReg, BitVec.add_sub_cancel, writeReg_readReg]
  case memory =>
    obtain ⟨-, -, hops⟩ := incrementAndDecrementMemory
    obtain ⟨⟨t, ht, hst, hup⟩, -⟩ := hops w addr s
    obtain ⟨-, u, hu, htu, hdown⟩ := hops w addr t
    have hread : u.memRead addr w = s.memRead addr w :=
      BitVec.eq_of_toNat_eq (toNat_eq_of_succ_pred (memRead_lt s addr w) hup hdown)
    refine ⟨t, u, ht, hu, fun a => ?_⟩
    by_cases ha : a ∈ cells w addr
    · exact readByte_eq_of_memRead_eq hread ha
    · rw [htu.mem a ha, hst.mem a ha]

/-! ### Resets and the host port -/

theorem externalReset_eq (s : State) : s.externalReset = { State.reset with layout := s.layout } := by
  rw [State.externalReset, resetCore_eq]
  rfl

theorem reset_readReg (r : Reg) : State.reset.readReg r = if r = .sp then 0xFFFF else 0x0000 := by
  cases r <;> rfl

/-- Settles O51: the fields of the state after reset, and `externalReset_eq`. -/
theorem externalResetValues : Obligations.ExternalResetValues :=
  ⟨reset_readReg, rfl, fun _ => rfl, rfl, rfl, rfl, externalReset_eq⟩

/-- Settles O52: a transaction is refused where the core runs, and has its effect where it does not; a written byte is
read back by `readByte_writeByte`. -/
theorem hostActsOnlyBetweenRuns : Obligations.HostActsOnlyBetweenRuns := by
  refine fun s => ⟨fun h _ => if_pos h, fun h => ?between⟩
  case between =>
    have hstopped : ¬ s.running = true := by rw [h]; decide
    exact ⟨if_neg hstopped, fun a v => ⟨_, if_neg hstopped, rfl, fun b => readByte_writeByte s a b v⟩,
      fun _ => if_neg hstopped, fun _ => if_neg hstopped⟩

end Sys2Proof.Machine
